-- ==== Sys2Proof/Word.lean ====
section
/-! DEFINITION. Words, bytes, bits, bit-strings, node indices and nodes: the types of R11, R12, R26 and R27. -/

namespace Sys2Proof

/-- A command word or a response word: 32 bits (`CMD_W`, `RSP_W`, R8). -/
abbrev Word := BitVec 32

/-- A byte, and a Symbol: 8 bits (`SYM_W`, R8, R11). -/
abbrev Byte := BitVec 8

/-- The 24-bit `data` or information field of a response, and the width of `FINFO` (R96, R20). -/
abbrev Info := BitVec 24

/-- One bit of a stream or a code; `true` is the bit 1. A bit-string is not a number (R12). -/
abbrev Bit := Bool

/-- A bit-string, first bit first (R12). -/
abbrev BitString := List Bit

/-- A node index that names an entry of `TREE`: 0 to 510 (R26, R30.2; `NNODES = 511`, R8). -/
abbrev NodeIdx := Fin 511

/-- A loaded entry of `TREE` (`v = 1`): a leaf with its Symbol, or an internal node with the child
reached on bit 0 (`left`) and on bit 1 (`right`). R26 allows `none | leaf sym | internal left right`. -/
inductive Node where
  | leaf (sym : Byte)
  | internal (left right : NodeIdx)
  deriving DecidableEq, Repr, Inhabited

/-- Tree memory: 511 entries, `none` where `v = 0` (R26). -/
abbrev Tree := Vector (Option Node) 511

/-- Code table: one bit-string for each of the 256 Symbols, the empty one where `len = 0`, that is
where the Symbol has no code (R27). -/
abbrev CodeTable := Vector BitString 256

end Sys2Proof
end

