-- ==== Sys2Proof/Syntax.lean ====
section
/-! DEFINITION. The 28 commands of HBP-1 (R94), one constructor per row of spec/opcode_table.json. -/

namespace Sys2Proof

/-- A command. Bytes, Symbols and the PUTEB bit are what they are; node indices, code positions and
buffer indices are natural numbers (R10, R92) whose range `Instr.wellFormed` checks. -/
inductive Instr where
  | nop
  | reset
  | clrerr
  | rdstat
  | rdfinfo
  | clrtree
  | ldleaf (idx : Nat) (sym : Byte)
  | ldint (idx left right : Nat)
  | setroot (idx : Nat)
  | rdnode (idx : Nat)
  | gentab
  | rdlen (sym : Byte)
  | rdcbit (pos : Nat) (sym : Byte)
  | clrin
  | putb (byte : Byte)
  | rdilen
  | clre
  | puteb (bit : Bit)
  | encsym (sym : Byte)
  | encode
  | rdelen
  | rdebit (index : Nat)
  | pack
  | rdpad
  | unpack
  | decode
  | rdolen
  | rdob (index : Nat)
  deriving DecidableEq, Repr

end Sys2Proof
end

