-- ==== Sys2Proof/WellFormed.lean ====
section
/-! DEFINITION. Which terms of `Instr` are commands: each numeric operand fits its field (R91, R92). -/

namespace Sys2Proof

/-- The operand fits a node-index field of 9 bits: 0 to 511 (R92). 511 is a legal operand; every use of
it raises `E_RANGE`. -/
def idxFits (n : Nat) : Bool := n < 512

/-- The operand fits the `pos` field of 8 bits: 0 to 255 (R92). -/
def posFits (n : Nat) : Bool := n < 256

/-- The operand fits the `index` field of 20 bits: 0 to 1048575 (R92). -/
def indexFits (n : Nat) : Bool := n < 1048576

/-- A command whose operands fit their fields. -/
def Instr.wellFormed : Instr → Bool
  | .nop => true
  | .reset => true
  | .clrerr => true
  | .rdstat => true
  | .rdfinfo => true
  | .clrtree => true
  | .ldleaf idx _ => idxFits idx
  | .ldint idx left right => idxFits idx && idxFits left && idxFits right
  | .setroot idx => idxFits idx
  | .rdnode idx => idxFits idx
  | .gentab => true
  | .rdlen _ => true
  | .rdcbit pos _ => posFits pos
  | .clrin => true
  | .putb _ => true
  | .rdilen => true
  | .clre => true
  | .puteb _ => true
  | .encsym _ => true
  | .encode => true
  | .rdelen => true
  | .rdebit index => indexFits index
  | .pack => true
  | .rdpad => true
  | .unpack => true
  | .decode => true
  | .rdolen => true
  | .rdob index => indexFits index

end Sys2Proof
end

