-- ==== Sys2Proof/Decode.lean ====
section
/-! DEFINITION. The decoder of R93, total on every 32-bit word, and the encoder of R94 and R91. -/

namespace Sys2Proof

/-- The unsigned number formed by the `len` bits of `w` from bit `lo` up: `w[lo+len-1:lo]` (R11). -/
def field (w : Word) (lo len : Nat) : Nat := w.toNat / 2 ^ lo % 2 ^ len

/-- Why a word is illegal (R95). Both kinds raise `E_ILLEGAL` (R93). -/
inductive DecodeReject where
  /-- opcodes 28 to 31 -/
  | reservedOpcode
  /-- a defined opcode with a reserved operand bit set -/
  | reservedBits
  deriving DecidableEq, Repr

/-- The Symbol, byte field of formats S, L and C: `cmd[7:0]` (R91). -/
def symField (w : Word) : Byte := BitVec.ofNat 8 (field w 0 8)

/-- `i` when bits 26 down to `used` of `w` are 0, else a rejection: the reserved bits of a format that
names the low `used` bits (R91, R93). -/
def withReserved (w : Word) (used : Nat) (i : Instr) : Except DecodeReject Instr :=
  if field w used (27 - used) = 0 then .ok i else .error .reservedBits

/-- Formats of R91, by how many low bits of `cmd` they name: Z 0, B 1, S 8, N 9, C 16, L 17, X 20, T 27. -/
def decode (w : Word) : Except DecodeReject Instr :=
  match field w 27 5 with
  | 0 => withReserved w 0 .nop
  | 1 => withReserved w 0 .reset
  | 2 => withReserved w 0 .clrerr
  | 3 => withReserved w 0 .rdstat
  | 4 => withReserved w 0 .rdfinfo
  | 5 => withReserved w 0 .clrtree
  | 6 => withReserved w 17 (.ldleaf (field w 8 9) (symField w))
  | 7 => withReserved w 27 (.ldint (field w 18 9) (field w 9 9) (field w 0 9))
  | 8 => withReserved w 9 (.setroot (field w 0 9))
  | 9 => withReserved w 9 (.rdnode (field w 0 9))
  | 10 => withReserved w 0 .gentab
  | 11 => withReserved w 8 (.rdlen (symField w))
  | 12 => withReserved w 16 (.rdcbit (field w 8 8) (symField w))
  | 13 => withReserved w 0 .clrin
  | 14 => withReserved w 8 (.putb (symField w))
  | 15 => withReserved w 0 .rdilen
  | 16 => withReserved w 0 .clre
  | 17 => withReserved w 1 (.puteb (field w 0 1 == 1))
  | 18 => withReserved w 8 (.encsym (symField w))
  | 19 => withReserved w 0 .encode
  | 20 => withReserved w 0 .rdelen
  | 21 => withReserved w 20 (.rdebit (field w 0 20))
  | 22 => withReserved w 0 .pack
  | 23 => withReserved w 0 .rdpad
  | 24 => withReserved w 0 .unpack
  | 25 => withReserved w 0 .decode
  | 26 => withReserved w 0 .rdolen
  | 27 => withReserved w 20 (.rdob (field w 0 20))
  | _ => .error .reservedOpcode

/-- The information of an illegal word: `cmd[23:0]` (R93). -/
def illegalInfo (w : Word) : Info := BitVec.ofNat 24 (field w 0 24)

/-- The number of a command's opcode (R94). -/
def opcode : Instr → Nat
  | .nop => 0
  | .reset => 1
  | .clrerr => 2
  | .rdstat => 3
  | .rdfinfo => 4
  | .clrtree => 5
  | .ldleaf _ _ => 6
  | .ldint _ _ _ => 7
  | .setroot _ => 8
  | .rdnode _ => 9
  | .gentab => 10
  | .rdlen _ => 11
  | .rdcbit _ _ => 12
  | .clrin => 13
  | .putb _ => 14
  | .rdilen => 15
  | .clre => 16
  | .puteb _ => 17
  | .encsym _ => 18
  | .encode => 19
  | .rdelen => 20
  | .rdebit _ => 21
  | .pack => 22
  | .rdpad => 23
  | .unpack => 24
  | .decode => 25
  | .rdolen => 26
  | .rdob _ => 27

/-- The number in `cmd[26:0]`: the operands at the places R91 gives them, reserved bits 0. -/
def operandBits : Instr → Nat
  | .nop => 0
  | .reset => 0
  | .clrerr => 0
  | .rdstat => 0
  | .rdfinfo => 0
  | .clrtree => 0
  | .ldleaf idx sym => idx * 2 ^ 8 + sym.toNat
  | .ldint idx left right => idx * 2 ^ 18 + left * 2 ^ 9 + right
  | .setroot idx => idx
  | .rdnode idx => idx
  | .gentab => 0
  | .rdlen sym => sym.toNat
  | .rdcbit pos sym => pos * 2 ^ 8 + sym.toNat
  | .clrin => 0
  | .putb byte => byte.toNat
  | .rdilen => 0
  | .clre => 0
  | .puteb bit => bit.toNat
  | .encsym sym => sym.toNat
  | .encode => 0
  | .rdelen => 0
  | .rdebit index => index
  | .pack => 0
  | .rdpad => 0
  | .unpack => 0
  | .decode => 0
  | .rdolen => 0
  | .rdob index => index

/-- The word of a command: `opcode * 2^27` plus its operands (R94, R91, R99). -/
def encode (i : Instr) : Word := BitVec.ofNat 32 (opcode i * 2 ^ 27 + operandBits i)

/-- A row of spec/opcode_table.json read through the decoder: the word whose low `nbits` bits are `w`'s
and whose other bits are 0. -/
def tableWord (nbits w : Nat) : Word := BitVec.ofNat 32 (w % 2 ^ nbits)

/-- The instruction the decoder reads from a table row's bits, `none` where it rejects them. -/
def decodeTableWord (nbits w : Nat) : Option Instr :=
  match decode (tableWord nbits w) with
  | .ok i => some i
  | .error _ => none

end Sys2Proof
end

