-- ==== Sys2Proof/Config.lean ====
section
/-! DEFINITION. The parameters of R8 and the one free value of the model. -/

namespace Sys2Proof

/-- The two capacities an implementation fixes (R8, D5): each 2 to 65536. A pair outside that range is
not a configuration of HBP (V11), so the bounds are part of the type. DESIGN CHOICE: the machine's
configuration is carried in `State.cfg` (log 4); safe. -/
structure Config where
  /-- bytes of input buffer, `IBUF_CAP` -/
  ibufCap : Nat
  /-- bytes of output buffer, `OBUF_CAP` -/
  obufCap : Nat
  ibufCap_ge : 2 ≤ ibufCap
  ibufCap_le : ibufCap ≤ 65536
  obufCap_ge : 2 ≤ obufCap
  obufCap_le : obufCap ≤ 65536
  deriving DecidableEq, Repr

/-- The default capacities of R8: 65536 and 65536. -/
def Config.default : Config :=
  ⟨65536, 65536, by decide, by decide, by decide, by decide⟩

/-- Bits of encoded-stream buffer: `EBUF_CAP = 8*OBUF_CAP - 9` (R8, R9). -/
def Config.ebufCap (c : Config) : Nat := 8 * c.obufCap - 9

/-- FREE VALUE. The fields of a `TREE` entry whose `v` is 0: "any value" (R31, V7). Only DECODE, in a
state no run reaches (R30.4 rules it out), could read one. No body, so nothing can be proved of it (log 3). -/
opaque Config.unloadedNode : NodeIdx → Node

end Sys2Proof
end

