-- ==== Sys2Proof/Machine/State.lean ====
section
/-! DEFINITION. The state of R20, the fault codes of R290, and the reset state of R34. -/

namespace Sys2Proof.Machine

/-- What the host does to HBP, between commands only (R72, R350): present a command word, or reset the
block (R340). -/
inductive HostEvent where
  | command (w : Word)
  | hardwareReset
  deriving DecidableEq, Repr

/-- The fault codes of R290 (14 is reserved and never produced). A fault of HBP is answered in the
command's response and stops nothing (R304), so raising one gives a next state. -/
inductive FaultCode where
  | illegal
  | range
  | overflow
  | tree
  | dupsym
  | depth
  | notab
  | nosym
  | short
  | padcount
  | notree
  | nocode
  | leftover
  | internal
  deriving DecidableEq, Repr

/-- What stops the machine: nothing. "No behaviour of HBP is `stuck`, none is undefined"
(93_implementation_defined.md), and no fault stops the block (R304). The type has no constructor. -/
inductive Fault where
  deriving DecidableEq, Repr

/-- What the model does not cover. -/
inductive Refusal where
  /-- An instruction without a meaning: answered by an arm of `exec` and by nothing else; no arm does.
  Safe: the model stops where the hardware goes on. -/
  | notModelled (mnemonic : String)
  deriving DecidableEq, Repr

/-- The state of HBP: the components of R20, then three fields of the model's own. `ILEN`, `ELEN`, `OLEN`
are the lengths of the three buffer lists (R31; log 1). -/
structure State where
  /-- tree memory; `none` is an entry with `v = 0` (R26) -/
  tree : Tree
  /-- `ROOT`, 0 to 510 (R20) -/
  root : NodeIdx
  /-- `ROOTV` (R25) -/
  rootv : Bool
  /-- code table (R27) -/
  ctab : CodeTable
  /-- `CTABV` (R25) -/
  ctabv : Bool
  /-- `IBUF[0..ILEN-1]` (R20) -/
  ibuf : List Byte
  /-- `EBUF[0..ELEN-1]` (R20) -/
  ebuf : BitString
  /-- `OBUF[0..OLEN-1]` (R20) -/
  obuf : List Byte
  /-- `PAD` (R23) -/
  pad : Byte
  /-- `ERR` (R28) -/
  err : BitVec 4
  /-- `FINFO` (R28) -/
  finfo : Info
  /-- MODEL'S OWN: the capacities of this HBP, changed by nothing (R8; log 4) -/
  cfg : Config
  /-- MODEL'S OWN: what the host does next, oldest first (R350; log 5) -/
  inbox : List HostEvent
  /-- MODEL'S OWN: the response to the latest command, none before the first since reset (R96; log 5) -/
  rsp : Option Word
  deriving DecidableEq, Repr

/-- The reset state of R34 for given capacities: everything zero or empty, no host event waiting. -/
def State.resetWith (c : Config) : State where
  tree := Vector.replicate 511 none
  root := 0
  rootv := false
  ctab := Vector.replicate 256 []
  ctabv := false
  ibuf := []
  ebuf := []
  obuf := []
  pad := 0
  err := 0
  finfo := 0
  cfg := c
  inbox := []
  rsp := none

/-- The machine right after reset, at the default capacities of R8 (R34, R340). -/
def State.reset : State := State.resetWith Config.default

/-- The outcome of a meaning. -/
abbrev Result := Host.Outcome State Fault Refusal

end Sys2Proof.Machine
end

