-- ==== Sys2Proof/Machine/Ops.lean ====
section
/-! DEFINITION. The named operations: the two tables, the three buffers, the response, taking a fault (R300),
clearing its record (R303), reset (R340), and taking the host's next event (R350). -/

namespace Sys2Proof.Machine

/-- `TREE[n]` (R26). -/
def nodeAt (t : Tree) (n : NodeIdx) : Option Node := t[n.val]'n.isLt

/-- `TREE[n] <- (v = 1, ...)` (R166, R167). -/
def setNode (t : Tree) (n : NodeIdx) (x : Node) : Tree := t.set n.val (some x) n.isLt

/-- Every `TREE[i].v` is 0 (R165). -/
def noNodes : Tree := Vector.replicate 511 none

/-- `CTAB[sym].code`; `CTAB[sym].len` is its length (R27). -/
def codeOf (t : CodeTable) (sym : Byte) : BitString := t[sym.toNat]'sym.isLt

/-- `CTAB[sym] <- (len = len(code), code)` (R170). -/
def setCode (t : CodeTable) (sym : Byte) (code : BitString) : CodeTable := t.set sym.toNat code sym.isLt

/-- Every `CTAB[s].len` is 0 (R170). -/
def noCodes : CodeTable := Vector.replicate 256 []

/-- `ILEN` (R22, R31). -/
abbrev State.ilen (s : State) : Nat := s.ibuf.length

/-- `ELEN` (R22, R31). -/
abbrev State.elen (s : State) : Nat := s.ebuf.length

/-- `OLEN` (R22, R31). -/
abbrev State.olen (s : State) : Nat := s.obuf.length

/-- The 24-bit word of a natural number (R11; R97: every value HBP returns fits). -/
def infoOf (n : Nat) : Info := BitVec.ofNat 24 n

/-- The number of a fault code (R290). -/
def FaultCode.number : FaultCode → BitVec 4
  | .illegal => 1
  | .range => 2
  | .overflow => 3
  | .tree => 4
  | .dupsym => 5
  | .depth => 6
  | .notab => 7
  | .nosym => 8
  | .short => 9
  | .padcount => 10
  | .notree => 11
  | .nocode => 12
  | .leftover => 13
  | .internal => 15

/-- The response word: `code` in bits 31:28, bits 27:24 zero, `data` in bits 23:0 (R96). -/
def response (code : BitVec 4) (data : Info) : Word := code ++ (0#4 : BitVec 4) ++ data

/-- `return v`: the command completes with response code 0 and data `v` (R13, R96). -/
def State.complete (s : State) (v : Nat) : State := { s with rsp := some (response 0 (infoOf v)) }

/-- A fault about to be raised: its code and information (R13). -/
structure Raised where
  code : FaultCode
  info : Info
  deriving DecidableEq, Repr

/-- `E_X(n)` for a natural number `n` (R13). -/
def raised (code : FaultCode) (n : Nat) : Raised := ⟨code, infoOf n⟩

/-- `raise E_X(info)`, FAULT ENTRY (R300): the response carries code and information, and the record takes
them if it is empty (R28, R302). What the command wrote before stays in `s`. -/
def State.raise (s : State) (e : Raised) : State :=
  { s with
    rsp := some (response e.code.number e.info)
    err := if s.err = 0 then e.code.number else s.err
    finfo := if s.err = 0 then e.info else s.finfo }

/-- Clearing the fault record, all that HBP has in place of a return from a fault (R303, R262). -/
def State.clearRecord (s : State) : State := { s with err := 0, finfo := 0 }

/-- Reset (R340): every component of R20 at its R34 value. The capacities and the host's coming actions are
not HBP's (R32); no command has been answered since. -/
def State.hardReset (s : State) : State := { State.resetWith s.cfg with inbox := s.inbox }

/-- An illegal word raises `E_ILLEGAL(cmd[23:0])` and does nothing else (R93). -/
def State.illegalCommand (s : State) (w : Word) : State := s.raise ⟨.illegal, illegalInfo w⟩

/-- The host's next event, and the state in which it has been taken (R69: in the order given). -/
def State.nextEvent (s : State) : Option (HostEvent × State) :=
  match s.inbox with
  | [] => none
  | ev :: rest => some (ev, { s with inbox := rest })

/-- A byte whose bit `7 - j` is `f j`: eight stream bits, the first the most significant (R63, R212). -/
def byteOfBits (f : Nat → Bit) : Byte :=
  BitVec.ofNat 8 (128 * (f 0).toNat + 64 * (f 1).toNat + 32 * (f 2).toNat + 16 * (f 3).toNat
    + 8 * (f 4).toNat + 4 * (f 5).toNat + 2 * (f 6).toNat + (f 7).toNat)

/-- Bit `7 - j` of a byte: stream bit `j` of it (R63). -/
def bitOfByte (b : Byte) (j : Nat) : Bit := b.getLsbD (7 - j)

end Sys2Proof.Machine
end

