-- ==== Sys2Proof/Machine/Operands.lean ====
section
/-! DEFINITION. The operand forms: node indices (formats N, L, T), code positions (C), buffer indices (X),
and the node word read back by RDNODE. -/

namespace Sys2Proof.Machine

/-- A node-index operand: an entry of `TREE`, or none when it is past 510 (R92, R61). -/
def nodeIdx? (n : Nat) : Option NodeIdx := if h : n < 511 then some ⟨n, h⟩ else none

/-- `CTAB[sym].code[pos]`, none when `pos >= len` (R177). -/
def codeBit? (s : State) (sym : Byte) (pos : Nat) : Option Bit := (codeOf s.ctab sym)[pos]?

/-- `EBUF[index]`, none when `index >= ELEN` (R196). -/
def ebufBit? (s : State) (index : Nat) : Option Bit := s.ebuf[index]?

/-- `OBUF[index]`, none when `index >= OLEN` (R270). -/
def obufByte? (s : State) (index : Nat) : Option Byte := s.obuf[index]?

/-- The node word of R98. -/
def nodeWord : Option Node → Nat
  | none => 0
  | some (.leaf sym) => 2 ^ 19 + 2 ^ 18 + sym.toNat
  | some (.internal left right) => 2 ^ 19 + left.val * 2 ^ 9 + right.val

/-- The fields of entry `n` as a walk reads them. An entry with `v = 0` has a free value: the spec gives its
fields none, and no reachable state reads one (R31; log 3). -/
def walkNode (t : Tree) (n : NodeIdx) : Node := (nodeAt t n).getD (Config.unloadedNode n)

/-- The child a bit leads to: `left` on 0, `right` on 1 (R110). -/
def child (left right : NodeIdx) (b : Bit) : NodeIdx := if b then right else left

end Sys2Proof.Machine
end

