-- ==== Sys2Proof/Machine/Buffers.lean ====
section
/-! DEFINITION. The input and output buffers (45_buffers_and_system.md, R266 to R270). -/

namespace Sys2Proof.Machine

/-- CLRIN (R266). -/
def execClrin (s : State) : Result := .next (({ s with ibuf := [] }).complete 0)

/-- PUTB byte (R267). -/
def execPutb (byte : Byte) (s : State) : Result :=
  if s.ilen = s.cfg.ibufCap then .next (s.raise (raised .overflow s.ilen))
  else .next (({ s with ibuf := s.ibuf ++ [byte] }).complete (s.ilen + 1))

/-- RDILEN (R268). -/
def execRdilen (s : State) : Result := .next (s.complete s.ilen)

/-- RDOLEN (R269). -/
def execRdolen (s : State) : Result := .next (s.complete s.olen)

/-- RDOB index (R270). -/
def execRdob (index : Nat) (s : State) : Result :=
  match obufByte? s index with
  | none => .next (s.raise (raised .range index))
  | some b => .next (s.complete b.toNat)

end Sys2Proof.Machine
end

