-- ==== Sys2Proof/Machine/Flags.lean ====
section
/-! DEFINITION. The flags `ROOTV` and `CTABV` (R25) and the status word (R29). -/

namespace Sys2Proof.Machine

/-- `CTABV <- 0`: done by every completed command that can change the tree or its root (R25, R71). -/
def State.invalidateTable (s : State) : State := { s with ctabv := false }

/-- The code table `t` becomes the valid one: `CTABV <- 1` (R25, R170). -/
def State.installTable (s : State) (t : CodeTable) : State := { s with ctab := t, ctabv := true }

/-- The code table is emptied and invalid (R170, `gfault`). -/
def State.dropTable (s : State) : State := { s with ctab := noCodes, ctabv := false }

/-- The status word `ERR + 16*ROOTV + 32*CTABV` (R29, R263). -/
def State.statusWord (s : State) : Nat := s.err.toNat + 16 * s.rootv.toNat + 32 * s.ctabv.toNat

end Sys2Proof.Machine
end

