-- ==== Sys2Proof/Machine/CodeTable.lean ====
section
/-! DEFINITION. Tree memory and the code-table generator (41_tree_and_codetable.md, R165 to R177). -/

namespace Sys2Proof.Machine

/-- CLRTREE (R165). `CTAB` entries are not touched. -/
def execClrtree (s : State) : Result :=
  .next (({ s with tree := noNodes, root := 0, rootv := false }).invalidateTable.complete 0)

/-- LDLEAF idx, sym (R166). -/
def execLdleaf (idx : Nat) (sym : Byte) (s : State) : Result :=
  match nodeIdx? idx with
  | none => .next (s.raise (raised .range idx))
  | some n => .next (({ s with tree := setNode s.tree n (.leaf sym) }).invalidateTable.complete 0)

/-- LDINT idx, left, right (R167): the operands are tested in that order. -/
def execLdint (idx left right : Nat) (s : State) : Result :=
  match nodeIdx? idx with
  | none => .next (s.raise (raised .range idx))
  | some n =>
    match nodeIdx? left with
    | none => .next (s.raise (raised .range left))
    | some l =>
      match nodeIdx? right with
      | none => .next (s.raise (raised .range right))
      | some r =>
        .next (({ s with tree := setNode s.tree n (.internal l r) }).invalidateTable.complete 0)

/-- SETROOT idx (R169). -/
def execSetroot (idx : Nat) (s : State) : Result :=
  match nodeIdx? idx with
  | none => .next (s.raise (raised .range idx))
  | some n => .next (({ s with root := n, rootv := true }).invalidateTable.complete 0)

/-- RDNODE idx (R168). -/
def execRdnode (idx : Nat) (s : State) : Result :=
  match nodeIdx? idx with
  | none => .next (s.raise (raised .range idx))
  | some n => .next (s.complete (nodeWord (nodeAt s.tree n)))

/-- What GENTAB's walk has produced: the table so far and the number of Symbols in it (R170). -/
structure Walk where
  table : CodeTable
  count : Nat
  deriving DecidableEq, Repr

/-- The walk of R170 in the recursive form the rule gives: test `v`; at a leaf test the Symbol and record it;
at an internal node test the depth, then visit `left` with `path ++ "0"`, then `right` with `path ++ "1"`,
stopping at the first fault. `room` is 255 minus the length of `path`, so `room = 0` is the test
`len(path) = 255`. DESIGN CHOICE: recursion instead of the explicit stack, which the rule and U6 allow
(log 9); safe. -/
def visit (t : Tree) (room : Nat) (n : NodeIdx) (path : BitString) (acc : Walk) : Except Raised Walk :=
  match room, nodeAt t n with
  | _, none => .error (raised .tree n.val)
  | _, some (.leaf sym) =>
    if codeOf acc.table sym = [] then .ok ⟨setCode acc.table sym path, acc.count + 1⟩
    else .error (raised .dupsym n.val)
  | 0, some (.internal _ _) => .error (raised .depth n.val)
  | room + 1, some (.internal left right) =>
    match visit t room left (path ++ [false]) acc with
    | .error e => .error e
    | .ok acc' => visit t room right (path ++ [true]) acc'

/-- The table GENTAB computes from `TREE`, `ROOT`, `ROOTV`, or the fault it meets first (R170): the empty
codebook, the single-leaf tree with its code "0" (R111), or the walk from the root. -/
def generate (t : Tree) (root : NodeIdx) (rootv : Bool) : Except Raised Walk :=
  if rootv = false then .ok ⟨noCodes, 0⟩
  else
    match nodeAt t root with
    | none => .error (raised .tree root.val)
    | some (.leaf sym) => .ok ⟨setCode noCodes sym [false], 1⟩
    | some (.internal _ _) => visit t 255 root [] ⟨noCodes, 0⟩

/-- GENTAB (R170). On a fault the table is left empty and invalid. -/
def execGentab (s : State) : Result :=
  match generate s.tree s.root s.rootv with
  | .error e => .next (s.dropTable.raise e)
  | .ok w => .next ((s.installTable w.table).complete w.count)

/-- RDLEN sym (R176). -/
def execRdlen (sym : Byte) (s : State) : Result :=
  if s.ctabv = false then .next (s.raise (raised .notab 0))
  else .next (s.complete (codeOf s.ctab sym).length)

/-- RDCBIT sym, pos (R177). -/
def execRdcbit (pos : Nat) (sym : Byte) (s : State) : Result :=
  if s.ctabv = false then .next (s.raise (raised .notab 0))
  else
    match codeBit? s sym pos with
    | none => .next (s.raise (raised .range pos))
    | some b => .next (s.complete b.toNat)

end Sys2Proof.Machine
end

