-- ==== Sys2Proof/Machine/Encoder.lean ====
section
/-! DEFINITION. The variable-length code symbol encoder (42_symbol_encoder.md, R191 to R196). -/

namespace Sys2Proof.Machine

/-- CLRE (R191). -/
def execClre (s : State) : Result := .next (({ s with ebuf := [] }).complete 0)

/-- PUTEB bit (R192). -/
def execPuteb (bit : Bit) (s : State) : Result :=
  if s.elen = s.cfg.ebufCap then .next (s.raise (raised .overflow s.elen))
  else .next (({ s with ebuf := s.ebuf ++ [bit] }).complete (s.elen + 1))

/-- ENCSYM sym (R193): the code is appended whole or not at all. -/
def execEncsym (sym : Byte) (s : State) : Result :=
  if s.ctabv = false then .next (s.raise (raised .notab 0))
  else
    let code := codeOf s.ctab sym
    if code.length = 0 then .next (s.raise (raised .nosym sym.toNat))
    else if s.elen + code.length > s.cfg.ebufCap then .next (s.raise (raised .overflow s.elen))
    else .next (({ s with ebuf := s.ebuf ++ code }).complete (s.elen + code.length))

/-- The loop of ENCODE (R194) from input position `k` on, `e` being the bits written so far. -/
def encodeFrom (t : CodeTable) (cap : Nat) (k : Nat) (e : BitString) : List Byte → Except Raised BitString
  | [] => .ok e
  | sym :: rest =>
    let code := codeOf t sym
    if code.length = 0 then .error (raised .nosym k)
    else if e.length + code.length > cap then .error (raised .overflow k)
    else encodeFrom t cap (k + 1) (e ++ code) rest

/-- ENCODE (R194): `ELEN <- 0` first, so a fault leaves the encoded stream empty. -/
def execEncode (s : State) : Result :=
  let s0 := { s with ebuf := [] }
  if s.ctabv = false then .next (s0.raise (raised .notab 0))
  else
    match encodeFrom s.ctab s.cfg.ebufCap 0 [] s.ibuf with
    | .error e => .next (s0.raise e)
    | .ok e => .next (({ s with ebuf := e }).complete e.length)

/-- RDELEN (R195). -/
def execRdelen (s : State) : Result := .next (s.complete s.elen)

/-- RDEBIT index (R196). -/
def execRdebit (index : Nat) (s : State) : Result :=
  match ebufBit? s index with
  | none => .next (s.raise (raised .range index))
  | some b => .next (s.complete b.toNat)

end Sys2Proof.Machine
end

