-- ==== Sys2Proof/Machine/Packer.lean ====
section
/-! DEFINITION. The bit packer (43_bit_packer.md, R212, R215). -/

namespace Sys2Proof.Machine

/-- The number of padding bits for a stream of `len` bits: `8 - (len mod 8)`, 1 to 8 (R212). -/
def padCount (len : Nat) : Nat := 8 - len % 8

/-- Body byte `k` of the artifact: stream bits `8k` to `8k + 7`, 0 past the end (R212). -/
def packByte (e : BitString) (k : Nat) : Byte := byteOfBits fun j => e.getD (8 * k + j) false

/-- The artifact PACK writes to `OBUF`: the header byte, then `(L + pad) div 8` body bytes (R212, R112). -/
def packBits (e : BitString) : List Byte :=
  BitVec.ofNat 8 (padCount e.length)
    :: (List.range ((e.length + padCount e.length) / 8)).map (packByte e)

/-- PACK (R212). The test for `E_INTERNAL` is kept as the rule writes it; it never holds (R214; log 10). -/
def execPack (s : State) : Result :=
  if (8 + s.elen + padCount s.elen) % 8 ≠ 0 then .next (s.raise (raised .internal s.elen))
  else
    let artifact := packBits s.ebuf
    .next (({ s with
      obuf := artifact
      pad := BitVec.ofNat 8 (padCount s.elen)
      ebuf := [] }).complete artifact.length)

/-- RDPAD (R215). -/
def execRdpad (s : State) : Result := .next (s.complete s.pad.toNat)

end Sys2Proof.Machine
end

