-- ==== Sys2Proof/Machine/System.lean ====
section
/-! DEFINITION. System commands (45_buffers_and_system.md, R260 to R264). -/

namespace Sys2Proof.Machine

/-- NOP (R260). -/
def execNop (s : State) : Result := .next (s.complete 0)

/-- RESET (R261): the hardware reset of R340, then the response. -/
def execReset (s : State) : Result := .next (s.hardReset.complete 0)

/-- CLRERR (R262). -/
def execClrerr (s : State) : Result := .next (s.clearRecord.complete 0)

/-- RDSTAT (R263). -/
def execRdstat (s : State) : Result := .next (s.complete s.statusWord)

/-- RDFINFO (R264). -/
def execRdfinfo (s : State) : Result := .next (s.complete s.finfo.toNat)

end Sys2Proof.Machine
end

