-- ==== Sys2Proof/Machine/Unpacker.lean ====
section
/-! DEFINITION. The bit unpacker and decoder (44_bit_unpacker.md, R232, R240). -/

namespace Sys2Proof.Machine

/-- The first `len` body bits of an artifact: bit `i` is bit `7 - (i mod 8)` of byte `1 + (i div 8)`
(R232, R63). -/
def unpackBits (artifact : List Byte) (len : Nat) : BitString :=
  (List.range len).map fun i => bitOfByte (artifact.getD (1 + i / 8) 0) (i % 8)

/-- UNPACK (R232): `ELEN <- 0` first, so a fault leaves the encoded stream empty; `PAD` is written only on
completion. The stripped bits are not examined (D19). -/
def execUnpack (s : State) : Result :=
  let s0 := { s with ebuf := [] }
  if s.ilen < 2 then .next (s0.raise (raised .short s.ilen))
  else
    let header := s.ibuf.getD 0 0
    let p := header.toNat
    if p < 1 ∨ 8 < p then .next (s0.raise (raised .padcount p))
    else
      let len := 8 * (s.ilen - 1) - p
      if s.cfg.ebufCap < len then .next (s0.raise (raised .overflow s.ilen))
      else .next (({ s with ebuf := unpackBits s.ibuf len, pad := header }).complete len)

/-- DECODE under a single-symbol codebook (R240): the only code is "0". `i` is the position of the next bit,
`out` the bytes written so far. -/
def decodeSingle (cap : Nat) (sym : Byte) (i : Nat) (out : List Byte) : BitString → Except Raised (List Byte)
  | [] => .ok out
  | b :: rest =>
    if b = true then .error (raised .nocode i)
    else if out.length = cap then .error (raised .overflow i)
    else decodeSingle cap sym (i + 1) (out ++ [sym]) rest

/-- The tree walk of DECODE (R240) from bit position `i`: `left` and `right` are the children of the current
node `cur`, `clen` the bits of the candidate so far, `out` the bytes written so far; `rootLeft` and `rootRight`
are the root's children, where the walk restarts after each leaf. -/
def decodeWalk (t : Tree) (cap : Nat) (rootLeft rootRight : NodeIdx) (i : Nat) (left right : NodeIdx)
    (clen : Nat) (out : List Byte) : BitString → Except Raised (List Byte)
  | [] => if clen ≠ 0 then .error (raised .leftover clen) else .ok out
  | b :: rest =>
    match walkNode t (child left right b) with
    | .leaf sym =>
      if out.length = cap then .error (raised .overflow i)
      else decodeWalk t cap rootLeft rootRight (i + 1) rootLeft rootRight 0 (out ++ [sym]) rest
    | .internal left' right' =>
      decodeWalk t cap rootLeft rootRight (i + 1) left' right' (clen + 1) out rest

/-- The Symbols DECODE finds in a non-empty stream under a codebook with a root, or its fault (R240). -/
def decodeBits (t : Tree) (root : NodeIdx) (cap : Nat) (e : BitString) : Except Raised (List Byte) :=
  match walkNode t root with
  | .leaf sym => decodeSingle cap sym 0 [] e
  | .internal left right => decodeWalk t cap left right 0 left right 0 [] e

/-- DECODE (R240): `OLEN <- 0` first, so a fault leaves the output empty. `EBUF` is not consumed. -/
def execDecode (s : State) : Result :=
  let s0 := { s with obuf := [] }
  if s.ctabv = false then .next (s0.raise (raised .notab 0))
  else if s.elen = 0 then .next (s0.complete 0)
  else if s.rootv = false then .next (s0.raise (raised .notree s.elen))
  else
    match decodeBits s.tree s.root s.cfg.obufCap s.ebuf with
    | .error e => .next (s0.raise e)
    | .ok out => .next (({ s with obuf := out }).complete out.length)

end Sys2Proof.Machine
end

