-- ==== Sys2Proof/Machine/Dispatch.lean ====
section
/-! DEFINITION. One arm per command: the meaning of each (R94). -/

namespace Sys2Proof.Machine

def exec (i : Instr) (s : State) : Host.Outcome State Fault Refusal :=
  match i with
  | .nop => Sys2Proof.Machine.execNop s
  | .reset => Sys2Proof.Machine.execReset s
  | .clrerr => Sys2Proof.Machine.execClrerr s
  | .rdstat => Sys2Proof.Machine.execRdstat s
  | .rdfinfo => Sys2Proof.Machine.execRdfinfo s
  | .clrtree => Sys2Proof.Machine.execClrtree s
  | .ldleaf idx sym => Sys2Proof.Machine.execLdleaf idx sym s
  | .ldint idx left right => Sys2Proof.Machine.execLdint idx left right s
  | .setroot idx => Sys2Proof.Machine.execSetroot idx s
  | .rdnode idx => Sys2Proof.Machine.execRdnode idx s
  | .gentab => Sys2Proof.Machine.execGentab s
  | .rdlen sym => Sys2Proof.Machine.execRdlen sym s
  | .rdcbit pos sym => Sys2Proof.Machine.execRdcbit pos sym s
  | .clrin => Sys2Proof.Machine.execClrin s
  | .putb byte => Sys2Proof.Machine.execPutb byte s
  | .rdilen => Sys2Proof.Machine.execRdilen s
  | .clre => Sys2Proof.Machine.execClre s
  | .puteb bit => Sys2Proof.Machine.execPuteb bit s
  | .encsym sym => Sys2Proof.Machine.execEncsym sym s
  | .encode => Sys2Proof.Machine.execEncode s
  | .rdelen => Sys2Proof.Machine.execRdelen s
  | .rdebit index => Sys2Proof.Machine.execRdebit index s
  | .pack => Sys2Proof.Machine.execPack s
  | .rdpad => Sys2Proof.Machine.execRdpad s
  | .unpack => Sys2Proof.Machine.execUnpack s
  | .decode => Sys2Proof.Machine.execDecode s
  | .rdolen => Sys2Proof.Machine.execRdolen s
  | .rdob index => Sys2Proof.Machine.execRdob index s

end Sys2Proof.Machine
end

