-- ==== Sys2Proof/Machine/Step.lean ====
section
/-! DEFINITION. One step: the host's next event is taken; a command word is decoded and executed as one
indivisible transition (R67, R93). -/

namespace Sys2Proof.Machine

/-- One step. With no host event waiting nothing happens: HBP only ever answers the host (R24, R306; log 6). -/
def step (s : State) : Host.Outcome State Fault Refusal :=
  match s.nextEvent with
  | none => .next s
  | some (.hardwareReset, s') => .next s'.hardReset
  | some (.command w, s') =>
    match decode w with
    | .ok i => exec i s'
    | .error _ => .next (s'.illegalCommand w)

/-- `s` with the word of a table row as the host's next event: where the machine takes its next command
(R350). Everything else is as in `s`. -/
def State.withFetchWord (s : State) (nbits w : Nat) : State :=
  { s with inbox := .command (tableWord nbits w) :: s.inbox }

end Sys2Proof.Machine
end

