-- ==== Sys2Proof/Safety.lean ====
section
/-! DEFINITION. What claims about HBP are stated in: the response word in arithmetic, what a completed and a
faulted command leave, the abstract tree and its codes (R162 to R164), the invariants of R30, and the spec's own
algorithms in the forms the machine does not use (the explicit stack of R170, the table match of R231). -/

namespace Sys2Proof.Safety

open Sys2Proof.Machine

/-! ## Responses and faults -/

/-- The response word as a number: `code` in bits 31:28, bits 27:24 zero, `data` in bits 23:0 (R96). -/
def answer (code data : Nat) : Word := BitVec.ofNat 32 (code * 2 ^ 28 + data % 2 ^ 24)

/-- `s` after `return data` (R13, R96): only the response changes. -/
def completed (s : State) (data : Nat) : State := { s with rsp := some (answer 0 data) }

/-- `s` after `raise` of fault number `code` with `info` (R300): the response, and the record if it was empty. -/
def faulted (s : State) (code info : Nat) : State :=
  { s with
    rsp := some (answer code info)
    err := if s.err = 0 then BitVec.ofNat 4 code else s.err
    finfo := if s.err = 0 then BitVec.ofNat 24 info else s.finfo }

/-- The `code` field of a response word (R96). -/
def responseCode (r : Word) : Nat := r.toNat / 2 ^ 28

/-- The latest command completed: its response has code 0 (R96). -/
def Completed (s : State) : Prop := ∃ r, s.rsp = some r ∧ responseCode r = 0

/-- No fault is on record. With `err = 0` at the start and no CLRERR and no RESET between, this at the end says
that no command of a run faulted (R302). -/
def NoFaultRecorded (s : State) : Prop := s.err = 0

/-! ## Abstract trees and codes -/

/-- An abstract binary tree with a Symbol at every leaf (R162). -/
inductive HTree where
  | leaf (sym : Byte)
  | node (left right : HTree)
  deriving DecidableEq, Repr

/-- Entry `n` of `TREE` unfolds to an abstract tree (R162). -/
inductive Unfolds (t : Tree) : NodeIdx → HTree → Prop where
  | leaf {n sym} : nodeAt t n = some (.leaf sym) → Unfolds t n (.leaf sym)
  | node {n l r a b} : nodeAt t n = some (.internal l r) → Unfolds t l a → Unfolds t r b → Unfolds t n (.node a b)

/-- The leaves from left to right, each Symbol with its path, `left` = 0 and `right` = 1, root decision first
(R110). -/
def HTree.paths : HTree → List (Byte × BitString)
  | .leaf sym => [(sym, [])]
  | .node l r => l.paths.map (fun c => (c.1, false :: c.2)) ++ r.paths.map (fun c => (c.1, true :: c.2))

/-- The Symbols at the leaf positions (R163). -/
def HTree.symbols (t : HTree) : List Byte := t.paths.map Prod.fst

/-- The code of every Symbol of the tree: its path, or "0" for the only leaf (R164, R111). -/
def HTree.codes : HTree → List (Byte × BitString)
  | .leaf sym => [(sym, [false])]
  | .node l r => (HTree.node l r).paths

/-- Entry `root` unfolds to `h`, whose leaves carry distinct Symbols (R163). -/
def WellFormedTree (t : Tree) (root : NodeIdx) (h : HTree) : Prop := Unfolds t root h ∧ h.symbols.Nodup

/-- The codebook is well-formed; the empty one always is (R163). -/
def WellFormedCodebook (s : State) : Prop := s.rootv = true → ∃ h, WellFormedTree s.tree s.root h

/-- `tab` gives each listed Symbol its code and every other Symbol none (R164). -/
def IsTableOf (tab : CodeTable) (codes : List (Byte × BitString)) : Prop :=
  (∀ c ∈ codes, codeOf tab c.1 = c.2) ∧ ∀ sym, sym ∉ codes.map Prod.fst → codeOf tab sym = []

/-- `CTAB` is exactly the code table of the codebook (R30 items 3 and 4, R164). -/
def TableOfCodebook (s : State) : Prop :=
  (s.rootv = false → ∀ sym, codeOf s.ctab sym = []) ∧
  (s.rootv = true → ∃ h, WellFormedTree s.tree s.root h ∧ IsTableOf s.ctab h.codes)

/-- No code is the beginning of another Symbol's code (R173, R30 item 5). -/
def PrefixFree (tab : CodeTable) : Prop :=
  ∀ a b, a ≠ b → codeOf tab a ≠ [] → codeOf tab b ≠ [] → ¬ codeOf tab a <+: codeOf tab b

/-- The concatenation of the codes of a Symbol sequence (R190). -/
def encoded (tab : CodeTable) (syms : List Byte) : BitString := syms.flatMap (codeOf tab)

/-- Every Symbol of the sequence has a code (R27). -/
def AllCoded (tab : CodeTable) (syms : List Byte) : Prop := ∀ x ∈ syms, codeOf tab x ≠ []

/-! ## The invariant -/

/-- The invariants of R30 (items 1, 3, 4, 5, the bound of 6, and 7). Item 2 holds by the type `NodeIdx`. -/
structure Inv (s : State) : Prop where
  ilen_le : s.ilen ≤ s.cfg.ibufCap
  elen_le : s.elen ≤ s.cfg.ebufCap
  olen_le : s.olen ≤ s.cfg.obufCap
  table : s.ctabv = true → TableOfCodebook s
  prefixFree : s.ctabv = true → PrefixFree s.ctab
  codeLength : s.ctabv = true → ∀ sym, (codeOf s.ctab sym).length ≤ 255
  pad_le : s.pad.toNat ≤ 8
  finfo_zero : s.err = 0 → s.finfo = 0

/-! ## The spec's algorithms in their other forms -/

/-- The loop of GENTAB with its explicit stack, as R170 writes it; the head of the list is the top. `fuel`
bounds the runs of the loop body and 256 the stack (R171); `none` means that a bound was passed. -/
def stackLoop (t : Tree) : Nat → List (NodeIdx × BitString) → Walk → Option (Except Raised Walk)
  | _, [], acc => some (.ok acc)
  | 0, _ :: _, _ => none
  | fuel + 1, (n, path) :: rest, acc =>
    if 256 < rest.length + 1 then none
    else
      match nodeAt t n with
      | none => some (.error (raised .tree n.val))
      | some (.leaf sym) =>
        if (codeOf acc.table sym).length ≠ 0 then some (.error (raised .dupsym n.val))
        else stackLoop t fuel rest ⟨setCode acc.table sym path, acc.count + 1⟩
      | some (.internal left right) =>
        if path.length = 255 then some (.error (raised .depth n.val))
        else stackLoop t fuel ((left, path ++ [false]) :: (right, path ++ [true]) :: rest) acc

/-- GENTAB's table or fault by the pseudocode of R170, the loop bounded by R171's `257 * 256`. -/
def generateByStack (s : State) : Option (Except Raised Walk) :=
  if s.rootv = false then some (.ok ⟨noCodes, 0⟩)
  else
    match nodeAt s.tree s.root with
    | none => some (.error (raised .tree s.root.val))
    | some (.leaf sym) => some (.ok ⟨setCode noCodes sym [false], 1⟩)
    | some (.internal _ _) => stackLoop s.tree (257 * 256) [(s.root, [])] ⟨noCodes, 0⟩

/-- The Symbol whose code is exactly the candidate, if any: the inverse code table (R231 step 4). -/
def matchCode (tab : CodeTable) (cand : BitString) : Option Byte :=
  ((List.range 256).map (BitVec.ofNat 8)).find? fun sym => codeOf tab sym == cand

/-- Decoding by matching the accumulated candidate against the inverse table (R231 steps 4 and 5): the
Symbols, or none when bits are left over. -/
def decodeByTable (tab : CodeTable) (cand : BitString) (out : List Byte) : BitString → Option (List Byte)
  | [] => if cand = [] then some out else none
  | b :: rest =>
    match matchCode tab (cand ++ [b]) with
    | some sym => decodeByTable tab [] (out ++ [sym]) rest
    | none => decodeByTable tab (cand ++ [b]) out rest

/-! ## Reset and sequences of commands -/

/-- Every component of R20 has its reset value (R34). -/
structure AtReset (s : State) : Prop where
  tree : ∀ n, nodeAt s.tree n = none
  root : s.root = 0
  rootv : s.rootv = false
  ctab : ∀ sym, (codeOf s.ctab sym).length = 0
  ctabv : s.ctabv = false
  ilen : s.ilen = 0
  elen : s.elen = 0
  olen : s.olen = 0
  pad : s.pad = 0
  err : s.err = 0
  finfo : s.finfo = 0

/-- The state after a sequence of commands (R362), none if one of them did not answer. -/
def runAll : List Instr → State → Option State
  | [], s => some s
  | i :: rest, s =>
    match exec i s with
    | .next t => runAll rest t
    | _ => none

/-- `s` with one command word as the host's only event (R350). -/
def present (s : State) (w : Word) : State := { s with inbox := [.command w] }

/-- The state after a sequence of command words, legal or not, each presented after the answer to the one before
it (R350, R362). -/
def runWords : List Word → State → Option State
  | [], s => some s
  | w :: rest, s =>
    match step (present s w) with
    | .next t => runWords rest t
    | _ => none

/-! ## Tables of the spec -/

/-- A row of spec/opcode_table.json: its opcode, `match` and `mask` (R93, R94). -/
structure TableRow where
  opcode : Nat
  value : Word
  mask : Word
  deriving DecidableEq, Repr

/-- The 28 rows, copied from spec/opcode_table.json. -/
def opcodeTable : List TableRow :=
  [⟨0, 0x00000000, 0xFFFFFFFF⟩, ⟨1, 0x08000000, 0xFFFFFFFF⟩, ⟨2, 0x10000000, 0xFFFFFFFF⟩,
   ⟨3, 0x18000000, 0xFFFFFFFF⟩, ⟨4, 0x20000000, 0xFFFFFFFF⟩, ⟨5, 0x28000000, 0xFFFFFFFF⟩,
   ⟨6, 0x30000000, 0xFFFE0000⟩, ⟨7, 0x38000000, 0xF8000000⟩, ⟨8, 0x40000000, 0xFFFFFE00⟩,
   ⟨9, 0x48000000, 0xFFFFFE00⟩, ⟨10, 0x50000000, 0xFFFFFFFF⟩, ⟨11, 0x58000000, 0xFFFFFF00⟩,
   ⟨12, 0x60000000, 0xFFFF0000⟩, ⟨13, 0x68000000, 0xFFFFFFFF⟩, ⟨14, 0x70000000, 0xFFFFFF00⟩]
  ++ [⟨15, 0x78000000, 0xFFFFFFFF⟩, ⟨16, 0x80000000, 0xFFFFFFFF⟩, ⟨17, 0x88000000, 0xFFFFFFFE⟩,
   ⟨18, 0x90000000, 0xFFFFFF00⟩, ⟨19, 0x98000000, 0xFFFFFFFF⟩, ⟨20, 0xA0000000, 0xFFFFFFFF⟩,
   ⟨21, 0xA8000000, 0xFFF00000⟩, ⟨22, 0xB0000000, 0xFFFFFFFF⟩, ⟨23, 0xB8000000, 0xFFFFFFFF⟩,
   ⟨24, 0xC0000000, 0xFFFFFFFF⟩, ⟨25, 0xC8000000, 0xFFFFFFFF⟩, ⟨26, 0xD0000000, 0xFFFFFFFF⟩,
   ⟨27, 0xD8000000, 0xFFF00000⟩]

/-- A word matches a row: `cmd & mask = match` (R93). -/
def TableRow.Matches (row : TableRow) (w : Word) : Prop := w &&& row.mask = row.value

/-- The columns of the access matrix R33, and the fault record, which every faulting command also writes. -/
inductive Component where
  | tree
  | root
  | ctab
  | ctabv
  | input
  | encoded
  | output
  | pad
  | record
  deriving DecidableEq, Repr

/-- The `W` entries of the access matrix R33. -/
def mayWrite : Instr → List Component
  | .nop => []
  | .reset => [.tree, .root, .ctab, .ctabv, .input, .encoded, .output, .pad, .record]
  | .clrerr => [.record]
  | .rdstat => []
  | .rdfinfo => []
  | .clrtree => [.tree, .root, .ctabv]
  | .ldleaf _ _ => [.tree, .ctabv]
  | .ldint _ _ _ => [.tree, .ctabv]
  | .setroot _ => [.root, .ctabv]
  | .rdnode _ => []
  | .gentab => [.ctab, .ctabv]
  | .rdlen _ => []
  | .rdcbit _ _ => []
  | .clrin => [.input]
  | .putb _ => [.input]
  | .rdilen => []
  | .clre => [.encoded]
  | .puteb _ => [.encoded]
  | .encsym _ => [.encoded]
  | .encode => [.encoded]
  | .rdelen => []
  | .rdebit _ => []
  | .pack => [.encoded, .output, .pad]
  | .rdpad => []
  | .unpack => [.encoded, .pad]
  | .decode => [.output]
  | .rdolen => []
  | .rdob _ => []

/-- The fault codes R290 lets each command raise (`E_INTERNAL`, which PACK never raises, left out: R214). -/
def mayRaise : Instr → List Nat
  | .nop => []
  | .reset => []
  | .clrerr => []
  | .rdstat => []
  | .rdfinfo => []
  | .clrtree => []
  | .ldleaf _ _ => [2]
  | .ldint _ _ _ => [2]
  | .setroot _ => [2]
  | .rdnode _ => [2]
  | .gentab => [4, 5, 6]
  | .rdlen _ => [7]
  | .rdcbit _ _ => [7, 2]
  | .clrin => []
  | .putb _ => [3]
  | .rdilen => []
  | .clre => []
  | .puteb _ => [3]
  | .encsym _ => [7, 8, 3]
  | .encode => [7, 8, 3]
  | .rdelen => []
  | .rdebit _ => [2]
  | .pack => []
  | .rdpad => []
  | .unpack => [9, 10, 3]
  | .decode => [7, 11, 12, 3, 13]
  | .rdolen => []
  | .rdob _ => [2]

/-- The component has the same contents in both states. -/
def SameIn (s t : State) : Component → Prop
  | .tree => t.tree = s.tree
  | .root => t.root = s.root ∧ t.rootv = s.rootv
  | .ctab => t.ctab = s.ctab
  | .ctabv => t.ctabv = s.ctabv
  | .input => t.ibuf = s.ibuf
  | .encoded => t.ebuf = s.ebuf
  | .output => t.obuf = s.obuf
  | .pad => t.pad = s.pad
  | .record => t.err = s.err ∧ t.finfo = s.finfo

/-- The read commands of R67. -/
def isRead : Instr → Bool
  | .nop => false
  | .reset => false
  | .clrerr => false
  | .rdstat => true
  | .rdfinfo => true
  | .clrtree => false
  | .ldleaf _ _ => false
  | .ldint _ _ _ => false
  | .setroot _ => false
  | .rdnode _ => true
  | .gentab => false
  | .rdlen _ => true
  | .rdcbit _ _ => true
  | .clrin => false
  | .putb _ => false
  | .rdilen => true
  | .clre => false
  | .puteb _ => false
  | .encsym _ => false
  | .encode => false
  | .rdelen => true
  | .rdebit _ => true
  | .pack => false
  | .rdpad => true
  | .unpack => false
  | .decode => false
  | .rdolen => true
  | .rdob _ => true

end Sys2Proof.Safety
end

