-- ==== Sys2Proof/Certificates/Slice0/Obligations.lean ====
section
/-! DEFINITION. The statements for the provers. Each docstring names the rules of the spec it formalises.
`completed s d` is `s` with the response "code 0, data d" and nothing else changed; `faulted s c i` is `s` after
fault entry R300 with code `c` and information `i`; so an equation `exec i s = .next (...)` states the whole frame. -/

open Sys2Proof Sys2Proof.Machine Sys2Proof.Safety

/-! ## Encoding -/

/-- Words written out in the spec decode to their commands, one or more of each format (R91, R94, R99,
95_test_vectors.md V-E1). -/
def Obligations.SampleWordsDecode : Prop :=
  decode 0x00000000 = .ok .nop ∧
  decode 0xC8000000 = .ok .decode ∧
  decode 0x700000FF = .ok (.putb 255) ∧
  decode 0x88000001 = .ok (.puteb true) ∧
  decode 0x400001FE = .ok (.setroot 510) ∧
  decode 0x3001FEFF = .ok (.ldleaf 510 255) ∧
  decode 0x3000026C = .ok (.ldleaf 2 108) ∧
  decode 0x3838180D = .ok (.ldint 14 12 13) ∧
  decode 0x60000368 = .ok (.rdcbit 3 104) ∧
  decode 0xA807FFF6 = .ok (.rdebit 524278) ∧
  decode 0xD80FFFFF = .ok (.rdob 1048575)

/-- Decoding an encoded command gives it back, for every operand its fields admit (R91, R92, R94). -/
def Obligations.DecodeEncodeRoundTrip : Prop :=
  ∀ i : Instr, i.wellFormed = true → decode (encode i) = .ok i

/-- A word that decodes is the word of that command and of no other: no bit of it is dropped (R91 to R93). -/
def Obligations.DecodedWordsEncodeBack : Prop :=
  ∀ (w : Word) (i : Instr), decode w = .ok i → i.wellFormed = true ∧ encode i = w

/-- R93: a word is legal exactly when a row of the opcode table matches it, at most one does, it is the row of
the command decoded; a legal word runs its command, any other raises `E_ILLEGAL(cmd[23:0])` and changes nothing
but the fault record. -/
def Obligations.LegalExactlyWhenOneTableRowMatches : Prop :=
  ∀ w : Word,
    ((∃ i, decode w = .ok i) ↔ ∃ row ∈ opcodeTable, row.Matches w) ∧
    (∀ r1 ∈ opcodeTable, ∀ r2 ∈ opcodeTable, r1.Matches w → r2.Matches w → r1 = r2) ∧
    (∀ i, decode w = .ok i → ∃ row ∈ opcodeTable, row.Matches w ∧ row.opcode = opcode i) ∧
    (∀ (s : State) (rest : List HostEvent), s.inbox = .command w :: rest →
      (∀ i, decode w = .ok i → step s = exec i { s with inbox := rest }) ∧
      ((¬ ∃ i, decode w = .ok i) → step s = .next (faulted { s with inbox := rest } 1 (w.toNat % 2 ^ 24))))

/-- R95: opcodes 28 to 31 are illegal, and so is a defined opcode with a word its row does not match; no word
but 0 is NOP. -/
def Obligations.ReservedWordsAreIllegal : Prop :=
  (∀ (w : Word) (s : State) (rest : List HostEvent), s.inbox = .command w :: rest →
    (28 ≤ w.toNat / 2 ^ 27 ∨ ∃ row ∈ opcodeTable, row.opcode = w.toNat / 2 ^ 27 ∧ ¬ row.Matches w) →
    step s = .next (faulted { s with inbox := rest } 1 (w.toNat % 2 ^ 24))) ∧
  (∀ w : Word, decode w = .ok .nop ↔ w = 0)

/-! ## Steps and reset -/

/-- A step takes the host's next event: a word that decodes is executed by `exec`, a hardware reset resets, and
with no event nothing changes (the model's choices of logs 5, 6 and 7); `withFetchWord` is such an event. -/
def Obligations.StepRunsTheHostsNextEvent : Prop :=
  ∀ s : State,
    (∀ w rest i, s.inbox = .command w :: rest → decode w = .ok i → step s = exec i { s with inbox := rest }) ∧
    (∀ rest, s.inbox = .hardwareReset :: rest → step s = .next { State.resetWith s.cfg with inbox := rest }) ∧
    (s.inbox = [] → step s = .next s) ∧
    (∀ w i, w < 2 ^ 32 → decode (BitVec.ofNat 32 w) = .ok i → step (s.withFetchWord 32 w) = exec i s)

/-- R304 and R96: no fault stops the block. From every state a step gives a next state; a command word is used up
and answered by one response whose bits 27:24 are 0 and whose code is not the reserved 14. That the word leaves the
`inbox` is the model's way of saying that the host presents it once (log 5). -/
def Obligations.EveryCommandIsAnswered : Prop :=
  ∀ s : State, ∃ t, step s = .next t ∧ t.cfg = s.cfg ∧
    ∀ w rest, s.inbox = .command w :: rest →
      t.inbox = rest ∧ ∃ r, t.rsp = some r ∧ r.toNat / 2 ^ 24 % 16 = 0 ∧ responseCode r ≠ 14

/-- The reset state holds the value R34 gives every component. The last two conjuncts are not R34's: that `State.reset`
carries the capacities 65536 is the model's choice, log 4 (DESIGN CHOICE), which takes the default of R8. -/
def Obligations.ResetStateHoldsTheSpecsValues : Prop :=
  AtReset State.reset ∧ State.reset.cfg.ibufCap = 65536 ∧ State.reset.cfg.obufCap = 65536

/-- R261 and R340: RESET, from any state, and a hardware reset between commands both put every component at its
reset value (R34); RESET answers 0. -/
def Obligations.ResetCommandAndHardwareResetAgree : Prop :=
  decode 0x08000000 = .ok .reset ∧
  (∀ s : State, ∃ t, exec .reset s = .next t ∧ AtReset t ∧ t.rsp = some (answer 0 0)) ∧
  (∀ (s : State) (rest : List HostEvent), s.inbox = .hardwareReset :: rest → ∃ t, step s = .next t ∧ AtReset t)

/-! ## System commands -/

/-- R260: NOP. -/
def Obligations.NopChangesNothing : Prop :=
  decode 0x00000000 = .ok .nop ∧ ∀ s : State, exec .nop s = .next (completed s 0)

/-- R262: CLRERR clears `ERR` and `FINFO` and nothing else. -/
def Obligations.ClrerrClearsOnlyTheRecord : Prop :=
  decode 0x10000000 = .ok .clrerr ∧
  ∀ s : State, exec .clrerr s = .next (completed { s with err := 0, finfo := 0 } 0)

/-- R263 and R29: RDSTAT returns `ERR` in bits 3:0, `ROOTV` in bit 4, `CTABV` in bit 5, and 0 in every other bit. -/
def Obligations.RdstatShowsTheStatusWord : Prop :=
  decode 0x18000000 = .ok .rdstat ∧
  ∀ s : State, ∃ r, exec .rdstat s = .next { s with rsp := some r } ∧
    r.toNat % 16 = s.err.toNat ∧ r.toNat / 16 % 2 = s.rootv.toNat ∧ r.toNat / 32 % 2 = s.ctabv.toNat ∧
    r.toNat / 64 = 0

/-- R264: RDFINFO returns `FINFO`, which is 0 while `ERR` is 0 in every state that keeps the invariant. -/
def Obligations.RdfinfoReturnsTheInformation : Prop :=
  decode 0x20000000 = .ok .rdfinfo ∧
  ∀ s : State, exec .rdfinfo s = .next (completed s s.finfo.toNat) ∧
    (Inv s → s.err = 0 → exec .rdfinfo s = .next (completed s 0))

/-! ## Tree memory and the code table -/

/-- R165: CLRTREE unloads every entry, clears `ROOT`, `ROOTV` and `CTABV`, and leaves `CTAB` alone. -/
def Obligations.ClrtreeForgetsTheTree : Prop :=
  decode 0x28000000 = .ok .clrtree ∧
  ∀ s : State, ∃ tree, (∀ n, nodeAt tree n = none) ∧
    exec .clrtree s = .next (completed { s with tree := tree, root := 0, rootv := false, ctabv := false } 0)

/-- R166: LDLEAF writes one leaf and clears `CTABV`; an index past 510 is `E_RANGE` and writes nothing. -/
def Obligations.LdleafWritesOneLeaf : Prop :=
  (∀ (idx : Nat) (sym : Byte), idx < 512 →
    decode (BitVec.ofNat 32 (6 * 2 ^ 27 + idx * 2 ^ 8 + sym.toNat)) = .ok (.ldleaf idx sym)) ∧
  ∀ (s : State) (sym : Byte),
    (∀ n : NodeIdx, ∃ tree, exec (.ldleaf n.val sym) s = .next (completed { s with tree := tree, ctabv := false } 0) ∧
      nodeAt tree n = some (.leaf sym) ∧ ∀ m, m ≠ n → nodeAt tree m = nodeAt s.tree m) ∧
    (∀ idx : Nat, 510 < idx → exec (.ldleaf idx sym) s = .next (faulted s 2 idx))

/-- R167: LDINT writes one internal node and clears `CTABV`; the first of idx, left, right past 510 is
`E_RANGE` and nothing is written. -/
def Obligations.LdintWritesOneInternalNode : Prop :=
  (∀ idx left right : Nat, idx < 512 → left < 512 → right < 512 →
    decode (BitVec.ofNat 32 (7 * 2 ^ 27 + idx * 2 ^ 18 + left * 2 ^ 9 + right)) = .ok (.ldint idx left right)) ∧
  ∀ s : State,
    (∀ n l r : NodeIdx, ∃ tree,
      exec (.ldint n.val l.val r.val) s = .next (completed { s with tree := tree, ctabv := false } 0) ∧
      nodeAt tree n = some (.internal l r) ∧ ∀ m, m ≠ n → nodeAt tree m = nodeAt s.tree m) ∧
    (∀ idx left right : Nat, 510 < idx ∨ 510 < left ∨ 510 < right →
      exec (.ldint idx left right) s =
        .next (faulted s 2 (if 510 < idx then idx else if 510 < left then left else right)))

/-- R169: SETROOT sets `ROOT` and `ROOTV` and clears `CTABV`; an index past 510 is `E_RANGE`. -/
def Obligations.SetrootNamesTheRoot : Prop :=
  (∀ idx : Nat, idx < 512 → decode (BitVec.ofNat 32 (8 * 2 ^ 27 + idx)) = .ok (.setroot idx)) ∧
  ∀ s : State,
    (∀ n : NodeIdx,
      exec (.setroot n.val) s = .next (completed { s with root := n, rootv := true, ctabv := false } 0)) ∧
    (∀ idx : Nat, 510 < idx → exec (.setroot idx) s = .next (faulted s 2 idx))

/-- R168 and R98: RDNODE returns the node word: 0 for an unloaded entry; bits 19 and 18 and the Symbol for a
leaf; bit 19 and the children in bits 17:9 and 8:0 for an internal node; all other bits 0. -/
def Obligations.RdnodeReturnsTheNodeWord : Prop :=
  (∀ idx : Nat, idx < 512 → decode (BitVec.ofNat 32 (9 * 2 ^ 27 + idx)) = .ok (.rdnode idx)) ∧
  ∀ s : State,
    (∀ n : NodeIdx, ∃ r, exec (.rdnode n.val) s = .next { s with rsp := some r } ∧ r.toNat / 2 ^ 20 = 0 ∧
      (nodeAt s.tree n = none → r = 0) ∧
      (∀ sym, nodeAt s.tree n = some (.leaf sym) →
        r.toNat / 2 ^ 18 = 3 ∧ r.toNat / 2 ^ 8 % 2 ^ 10 = 0 ∧ r.toNat % 2 ^ 8 = sym.toNat) ∧
      (∀ left right, nodeAt s.tree n = some (.internal left right) →
        r.toNat / 2 ^ 18 = 2 ∧ r.toNat / 2 ^ 9 % 2 ^ 9 = left.val ∧ r.toNat % 2 ^ 9 = right.val)) ∧
    (∀ idx : Nat, 510 < idx → exec (.rdnode idx) s = .next (faulted s 2 idx))

/-- R170 and R171: GENTAB is the explicit-stack walk of the pseudocode, which runs its loop body at most
257 * 256 times and never holds more than 256 entries (else `generateByStack` would be `none`); a fault leaves
`CTABV` = 0 and every length 0. -/
def Obligations.GentabIsTheStackWalk : Prop :=
  decode 0x50000000 = .ok .gentab ∧
  ∀ s : State, ∃ result, generateByStack s = some result ∧
    exec .gentab s = .next (match result with
      | .ok w => completed { s with ctab := w.table, ctabv := true } w.count
      | .error e => faulted { s with ctab := noCodes, ctabv := false } e.code.number.toNat e.info.toNat)

/-- R172: GENTAB completes exactly when the codebook is well-formed (the empty one included), and then `CTAB`
is the code table of R164 and `data` the number of leaves. -/
def Obligations.GentabCompletesExactlyOnWellFormed : Prop :=
  ∀ s : State,
    (s.rootv = false → ∃ tab, exec .gentab s = .next (completed { s with ctab := tab, ctabv := true } 0) ∧
      ∀ sym, codeOf tab sym = []) ∧
    (∀ h, s.rootv = true → WellFormedTree s.tree s.root h →
      ∃ tab, exec .gentab s = .next (completed { s with ctab := tab, ctabv := true } h.symbols.length) ∧
        IsTableOf tab h.codes) ∧
    (∀ t, exec .gentab s = .next t → Completed t → WellFormedCodebook s)

/-- GENTAB on a codebook that is not well-formed raises `E_TREE`, `E_DUPSYM` or `E_DEPTH` with the index of a
node, leaves every length 0 and `CTABV` = 0, and changes nothing else (R170, R301). -/
def Obligations.GentabFaultsLeaveNoTable : Prop :=
  ∀ s : State, ¬ WellFormedCodebook s →
    ∃ tab, (∀ sym, codeOf tab sym = []) ∧ ∃ (code : Nat) (n : NodeIdx), code ∈ [4, 5, 6] ∧
      exec .gentab s = .next (faulted { s with ctab := tab, ctabv := false } code n.val)

/-- R173: after a completed GENTAB no code is the beginning of another, and every stored code has 1 to 255
bits. -/
def Obligations.GentabCodesArePrefixFree : Prop :=
  ∀ s t : State, exec .gentab s = .next t → Completed t →
    PrefixFree t.ctab ∧
    ∀ sym, codeOf t.ctab sym ≠ [] → 1 ≤ (codeOf t.ctab sym).length ∧ (codeOf t.ctab sym).length ≤ 255

/-- R176: RDLEN. -/
def Obligations.RdlenReadsTheLength : Prop :=
  (∀ sym : Byte, decode (BitVec.ofNat 32 (11 * 2 ^ 27 + sym.toNat)) = .ok (.rdlen sym)) ∧
  ∀ (s : State) (sym : Byte),
    exec (.rdlen sym) s =
      .next (if s.ctabv = true then completed s (codeOf s.ctab sym).length else faulted s 7 0)

/-- R177: RDCBIT; `E_NOTAB` before `E_RANGE`. -/
def Obligations.RdcbitReadsOneBit : Prop :=
  (∀ (pos : Nat) (sym : Byte), pos < 256 →
    decode (BitVec.ofNat 32 (12 * 2 ^ 27 + pos * 2 ^ 8 + sym.toNat)) = .ok (.rdcbit pos sym)) ∧
  ∀ (s : State) (pos : Nat) (sym : Byte),
    exec (.rdcbit pos sym) s =
      .next (if s.ctabv = false then faulted s 7 0
        else if (codeOf s.ctab sym).length ≤ pos then faulted s 2 pos
        else completed s ((codeOf s.ctab sym).getD pos false).toNat)

/-! ## Buffers -/

/-- R266 and R267: CLRIN empties the input buffer; PUTB appends a byte, or raises `E_OVERFLOW(ILEN)` on a full
buffer and writes nothing. -/
def Obligations.ClrinAndPutbFillTheInput : Prop :=
  decode 0x68000000 = .ok .clrin ∧
  (∀ b : Byte, decode (BitVec.ofNat 32 (14 * 2 ^ 27 + b.toNat)) = .ok (.putb b)) ∧
  (∀ s : State, exec .clrin s = .next (completed { s with ibuf := [] } 0)) ∧
  (∀ (s : State) (b : Byte), exec (.putb b) s =
    .next (if s.ilen = s.cfg.ibufCap then faulted s 3 s.ilen
      else completed { s with ibuf := s.ibuf ++ [b] } (s.ilen + 1)))

/-- R268, R195 and R269: RDILEN, RDELEN and RDOLEN return the lengths and change nothing. -/
def Obligations.LengthReadsReturnTheLengths : Prop :=
  decode 0x78000000 = .ok .rdilen ∧ decode 0xA0000000 = .ok .rdelen ∧ decode 0xD0000000 = .ok .rdolen ∧
  ∀ s : State,
    exec .rdilen s = .next (completed s s.ilen) ∧
    exec .rdelen s = .next (completed s s.elen) ∧
    exec .rdolen s = .next (completed s s.olen)

/-- R270: RDOB. -/
def Obligations.RdobReadsOneByte : Prop :=
  (∀ index : Nat, index < 2 ^ 20 → decode (BitVec.ofNat 32 (27 * 2 ^ 27 + index)) = .ok (.rdob index)) ∧
  ∀ (s : State) (index : Nat),
    exec (.rdob index) s =
      .next (if s.olen ≤ index then faulted s 2 index else completed s (s.obuf.getD index 0).toNat)

/-! ## Symbol encoder -/

/-- R191 and R192: CLRE empties the encoded stream; PUTEB appends one bit, or raises `E_OVERFLOW(ELEN)` on a full
stream; no code table is needed. -/
def Obligations.ClreAndPutebFillTheStream : Prop :=
  decode 0x80000000 = .ok .clre ∧
  decode 0x88000000 = .ok (.puteb false) ∧ decode 0x88000001 = .ok (.puteb true) ∧
  (∀ s : State, exec .clre s = .next (completed { s with ebuf := [] } 0)) ∧
  (∀ (s : State) (b : Bit), exec (.puteb b) s =
    .next (if s.elen = s.cfg.ebufCap then faulted s 3 s.elen
      else completed { s with ebuf := s.ebuf ++ [b] } (s.elen + 1)))

/-- R193: ENCSYM appends one Symbol's code whole, or nothing; `E_NOTAB`, `E_NOSYM`, `E_OVERFLOW` in that order. -/
def Obligations.EncsymAppendsAWholeCode : Prop :=
  (∀ sym : Byte, decode (BitVec.ofNat 32 (18 * 2 ^ 27 + sym.toNat)) = .ok (.encsym sym)) ∧
  ∀ (s : State) (sym : Byte),
    exec (.encsym sym) s =
      .next (if s.ctabv = false then faulted s 7 0
        else if codeOf s.ctab sym = [] then faulted s 8 sym.toNat
        else if s.cfg.ebufCap < s.elen + (codeOf s.ctab sym).length then faulted s 3 s.elen
        else completed { s with ebuf := s.ebuf ++ codeOf s.ctab sym } (s.elen + (codeOf s.ctab sym).length))

/-- R196: RDEBIT. -/
def Obligations.RdebitReadsOneBit : Prop :=
  (∀ index : Nat, index < 2 ^ 20 → decode (BitVec.ofNat 32 (21 * 2 ^ 27 + index)) = .ok (.rdebit index)) ∧
  ∀ (s : State) (index : Nat),
    exec (.rdebit index) s =
      .next (if s.elen ≤ index then faulted s 2 index else completed s (s.ebuf.getD index false).toNat)

/-- R194: ENCODE replaces the stream by the concatenated codes of the whole input; without a table, at the first
Symbol without a code, or at the first whose code does not fit, it faults and leaves the stream empty. -/
def Obligations.EncodeConcatenatesTheCodes : Prop :=
  decode 0x98000000 = .ok .encode ∧
  ∀ s : State,
    (s.ctabv = false → exec .encode s = .next (faulted { s with ebuf := [] } 7 0)) ∧
    (s.ctabv = true → AllCoded s.ctab s.ibuf → (encoded s.ctab s.ibuf).length ≤ s.cfg.ebufCap →
      exec .encode s =
        .next (completed { s with ebuf := encoded s.ctab s.ibuf } (encoded s.ctab s.ibuf).length)) ∧
    (∀ before x after, s.ctabv = true → s.ibuf = before ++ x :: after → AllCoded s.ctab before →
      (encoded s.ctab before).length ≤ s.cfg.ebufCap → codeOf s.ctab x = [] →
      exec .encode s = .next (faulted { s with ebuf := [] } 8 before.length)) ∧
    (∀ before x after, s.ctabv = true → s.ibuf = before ++ x :: after → AllCoded s.ctab (before ++ [x]) →
      (encoded s.ctab before).length ≤ s.cfg.ebufCap → s.cfg.ebufCap < (encoded s.ctab (before ++ [x])).length →
      exec .encode s = .next (faulted { s with ebuf := [] } 3 before.length))

/-- R197. A completed ENCODE leaves the state that CLRE and one ENCSYM per input byte leave, none of which faults: the
codes end to end. An ENCODE that faults at the Symbol at position `before.length` answers that position; the sequence
has then completed at every Symbol before it, faults at that Symbol with the same code, its own information being the
Symbol for `E_NOSYM` and the stream's length for `E_OVERFLOW`, and leaves the codes before it, where ENCODE leaves none.
Without a valid table both raise `E_NOTAB`, the sequence at its first Symbol; it has none when the input is empty
(log 11). -/
def Obligations.EncodeIsTheEncsymSequence : Prop :=
  ∀ s t : State, exec .encode s = .next t →
    (Completed t →
      runAll (.clre :: s.ibuf.map .encsym) s = some t ∧ t.ebuf = encoded s.ctab s.ibuf ∧
      ∀ k ≤ s.ilen, ∃ u, runAll (.clre :: (s.ibuf.take k).map .encsym) s = some u ∧ Completed u) ∧
    (s.ctabv = true → ¬ Completed t →
      t.ebuf = [] ∧
      ∃ before x after u v code, s.ibuf = before ++ x :: after ∧
        (∀ k ≤ before.length, ∃ w, runAll (.clre :: (before.take k).map .encsym) s = some w ∧ Completed w) ∧
        runAll (.clre :: before.map .encsym) s = some u ∧ u.ebuf = encoded s.ctab before ∧
        exec (.encsym x) u = .next v ∧ v.ebuf = u.ebuf ∧
        t.rsp = some (answer code before.length) ∧
        (code = 8 ∧ v.rsp = some (answer code x.toNat) ∨ code = 3 ∧ v.rsp = some (answer code u.elen))) ∧
    (s.ctabv = false →
      t.ebuf = [] ∧ t.rsp = some (answer 7 0) ∧
      ∀ x after, s.ibuf = x :: after →
        ∃ u v, runAll [.clre] s = some u ∧ Completed u ∧ u.ebuf = [] ∧
          exec (.encsym x) u = .next v ∧ v.ebuf = [] ∧ v.rsp = some (answer 7 0))

/-! ## Bit packer -/

/-- R212, with the layout of R112 and R214: PACK writes `(L div 8) + 2` bytes, the first the pad count, then the
stream and its zero padding most significant bit first; it sets `PAD`, empties the stream and never faults. -/
def Obligations.PackWritesTheArtifact : Prop :=
  decode 0xB0000000 = .ok .pack ∧
  ∀ s : State, ∃ artifact : List Byte,
    exec .pack s = .next (completed
      { s with obuf := artifact, pad := BitVec.ofNat 8 (8 - s.elen % 8), ebuf := [] } (s.elen / 8 + 2)) ∧
    artifact.length = s.elen / 8 + 2 ∧
    (artifact.getD 0 0).toNat = 8 - s.elen % 8 ∧
    ∀ k j, k < s.elen / 8 + 1 → j < 8 →
      (artifact.getD (1 + k) 0).getLsbD (7 - j) = (s.ebuf ++ List.replicate (8 - s.elen % 8) false).getD (8 * k + j) false

/-- R213: after every PACK the pad count is 1 to 8 and equals the header, header and body are a multiple of 8
bits, and the last `PAD` bits of the last byte are 0. -/
def Obligations.PackPaddingBound : Prop :=
  ∀ s t : State, exec .pack s = .next t →
    1 ≤ t.pad.toNat ∧ t.pad.toNat ≤ 8 ∧ t.obuf.getD 0 0 = t.pad ∧
    (s.elen + t.pad.toNat) % 8 = 0 ∧ 8 + s.elen + t.pad.toNat = 8 * t.olen ∧
    ∀ b, b < t.pad.toNat → (t.obuf.getD (t.olen - 1) 0).getLsbD b = false

/-- R216: what PACK writes depends on the bit sequence alone and determines it. -/
def Obligations.PackIsInjectiveOnStreams : Prop :=
  ∀ s1 s2 t1 t2 : State, exec .pack s1 = .next t1 → exec .pack s2 = .next t2 →
    (t1.obuf = t2.obuf ↔ s1.ebuf = s2.ebuf)

/-! ## Bit unpacker and decoder -/

/-- R232: UNPACK checks length, header and capacity in that order, each fault leaving the stream empty; else the
stream is the body's first `8*(ILEN-1) - p` bits, most significant first, and `PAD` the header. -/
def Obligations.UnpackStripsHeaderAndPadding : Prop :=
  decode 0xC0000000 = .ok .unpack ∧
  ∀ s : State, ∃ bits : BitString,
    bits.length = 8 * (s.ilen - 1) - (s.ibuf.getD 0 0).toNat ∧
    (∀ i, i < bits.length → bits.getD i false = (s.ibuf.getD (1 + i / 8) 0).getLsbD (7 - i % 8)) ∧
    exec .unpack s =
      .next (if s.ilen < 2 then faulted { s with ebuf := [] } 9 s.ilen
        else if (s.ibuf.getD 0 0).toNat = 0 ∨ 8 < (s.ibuf.getD 0 0).toNat then
          faulted { s with ebuf := [] } 10 (s.ibuf.getD 0 0).toNat
        else if s.cfg.ebufCap < bits.length then faulted { s with ebuf := [] } 3 s.ilen
        else completed { s with ebuf := bits, pad := s.ibuf.getD 0 0 } bits.length)

/-- UNPACK does not overflow when the input buffer is no larger than the output buffer (R232, R68). -/
def Obligations.UnpackFitsWhenInputIsNoLarger : Prop :=
  ∀ s t : State, Inv s → s.cfg.ibufCap ≤ s.cfg.obufCap → exec .unpack s = .next t →
    ∃ r, t.rsp = some r ∧ responseCode r ≠ 3

/-- R233: UNPACK of a packed stream gives the stream back, with its pad count; and packing what UNPACK got from
any artifact gives the artifact with its last `a[0]` bits forced to 0. -/
def Obligations.UnpackUndoesPack : Prop :=
  (∀ s p u : State, s.elen ≤ s.cfg.ebufCap → exec .pack s = .next p →
    u.ibuf = p.obuf → u.cfg = s.cfg →
    exec .unpack u =
      .next (completed { u with ebuf := s.ebuf, pad := BitVec.ofNat 8 (8 - s.elen % 8) } s.elen)) ∧
  (∀ u v p : State, exec .unpack u = .next v → Completed v → exec .pack v = .next p →
    p.olen = u.ilen ∧ p.obuf.getD 0 0 = u.ibuf.getD 0 0 ∧
    ∀ k b, 1 ≤ k → k < u.ilen → b < 8 →
      (p.obuf.getD k 0).getLsbD b =
        if k = u.ilen - 1 ∧ b < (u.ibuf.getD 0 0).toNat then false else (u.ibuf.getD k 0).getLsbD b)

/-- R240, with R242, R243 and R244: what DECODE does on every kind of stream, in every state of the invariant:
no table; no bits; bits under the empty codebook; whole codes that fit; whole codes and then the inside of a
code; whole codes one more than fit; a 1 bit under a single-symbol codebook. A fault leaves `OLEN` = 0, and the
encoded stream is never consumed. -/
def Obligations.DecodeOutcomeByStream : Prop :=
  decode 0xC8000000 = .ok .decode ∧
  ∀ s : State, Inv s →
    (s.ctabv = false → exec .decode s = .next (faulted { s with obuf := [] } 7 0)) ∧
    (s.ctabv = true → s.ebuf = [] → exec .decode s = .next (completed { s with obuf := [] } 0)) ∧
    (s.ctabv = true → s.ebuf ≠ [] → s.rootv = false →
      exec .decode s = .next (faulted { s with obuf := [] } 11 s.elen)) ∧
    (∀ syms, s.ctabv = true → AllCoded s.ctab syms → s.ebuf = encoded s.ctab syms →
      syms.length ≤ s.cfg.obufCap → exec .decode s = .next (completed { s with obuf := syms } syms.length)) ∧
    (∀ syms x left, s.ctabv = true → AllCoded s.ctab syms → s.ebuf = encoded s.ctab syms ++ left →
      left ≠ [] → left <+: codeOf s.ctab x → left ≠ codeOf s.ctab x → syms.length ≤ s.cfg.obufCap →
      exec .decode s = .next (faulted { s with obuf := [] } 13 left.length)) ∧
    (∀ syms x rest, s.ctabv = true → AllCoded s.ctab (syms ++ [x]) →
      s.ebuf = encoded s.ctab (syms ++ [x]) ++ rest → syms.length = s.cfg.obufCap →
      exec .decode s =
        .next (faulted { s with obuf := [] } 3 ((encoded s.ctab (syms ++ [x])).length - 1))) ∧
    (∀ sym zeros rest, s.ctabv = true → s.rootv = true → nodeAt s.tree s.root = some (.leaf sym) →
      s.ebuf = List.replicate zeros false ++ true :: rest → zeros ≤ s.cfg.obufCap →
      exec .decode s = .next (faulted { s with obuf := [] } 12 zeros))

/-- R241: the tree walk gives the same Symbols as matching the accumulated candidate against the inverse code
table (D48's step 4), in every state of the invariant with a valid table: DECODE completes with `out` exactly
when the table match does and `out` fits. -/
def Obligations.TreeWalkEqualsTableMatch : Prop :=
  ∀ s t : State, Inv s → s.ctabv = true → exec .decode s = .next t →
    ∀ out, (Completed t ∧ t.obuf = out) ↔
      (decodeByTable s.ctab [] [] s.ebuf = some out ∧ out.length ≤ s.cfg.obufCap)

/-- DECODE completes only on whole codes: what it delivers is the one Symbol sequence whose codes make up the
stream (R115, R245). -/
def Obligations.DecodeCompletesOnlyOnWholeCodes : Prop :=
  ∀ s t : State, Inv s → exec .decode s = .next t → Completed t →
    s.ctabv = true ∧ AllCoded s.ctab t.obuf ∧ s.ebuf = encoded s.ctab t.obuf ∧
    ∀ syms, AllCoded s.ctab syms → s.ebuf = encoded s.ctab syms → syms = t.obuf

/-- R245: compress, carry the artifact from the output to the input, decompress: every command completes and the
output is the input sequence, for every sequence that has codes and fits the buffers, the empty one included. -/
def Obligations.CompressThenDecompressRoundTrips : Prop :=
  ∀ s : State, Inv s → s.ctabv = true → AllCoded s.ctab s.ibuf →
    (encoded s.ctab s.ibuf).length ≤ s.cfg.ebufCap → s.ilen ≤ s.cfg.obufCap →
    (encoded s.ctab s.ibuf).length / 8 + 2 ≤ s.cfg.ibufCap →
    ∃ t1 t2 t3 t4 t5,
      exec .encode s = .next t1 ∧ Completed t1 ∧ t1.ebuf = encoded s.ctab s.ibuf ∧
      exec .pack t1 = .next t2 ∧ Completed t2 ∧
      runAll (.clrin :: t2.obuf.map .putb) t2 = some t3 ∧ Completed t3 ∧ t3.ibuf = t2.obuf ∧
      exec .unpack t3 = .next t4 ∧ Completed t4 ∧ t4.ebuf = t1.ebuf ∧
      exec .decode t4 = .next t5 ∧ Completed t5 ∧ t5.obuf = s.ibuf ∧ t5.err = s.err

/-- R246: an artifact without its last byte. If one byte is left UNPACK raises `E_SHORT(1)`; else UNPACK
completes with the stream less its last 8 bits, and DECODE then either completes, exactly when those 8 bits are
the codes of the last `m >= 1` Symbols, delivering the others, or raises `E_LEFTOVER`. -/
def Obligations.TruncationIsDetectedOnlySometimes : Prop :=
  ∀ s p u : State, Inv s → s.ctabv = true → s.elen ≤ s.cfg.ebufCap →
    exec .pack s = .next p → u = { s with ibuf := p.obuf.dropLast } →
    (p.olen = 2 → exec .unpack u = .next (faulted { u with ebuf := [] } 9 1)) ∧
    (3 ≤ p.olen → ∃ v, exec .unpack u = .next v ∧ Completed v ∧ v.ebuf = s.ebuf.take (s.elen - 8) ∧
      ∀ syms, AllCoded s.ctab syms → s.ebuf = encoded s.ctab syms → syms.length ≤ s.cfg.obufCap →
        ∀ w, exec .decode v = .next w →
          ((Completed w ↔ ∃ m, 1 ≤ m ∧ m ≤ syms.length ∧
            (encoded s.ctab (syms.drop (syms.length - m))).length = 8) ∧
          (∀ m, 1 ≤ m → m ≤ syms.length → (encoded s.ctab (syms.drop (syms.length - m))).length = 8 →
            w.obuf = syms.take (syms.length - m)) ∧
          (¬ Completed w → ∃ r, w.rsp = some r ∧ responseCode r = 13 ∧ w.obuf = [])))

/-! ## The whole machine -/

/-- The invariants of R30 hold after reset. -/
def Obligations.ResetHasTheInvariant : Prop :=
  ∀ c : Config, Inv (State.resetWith c)

/-- The invariants of R30 are kept by every step, from every state that has them: by every command, every
illegal word and a hardware reset. -/
def Obligations.StepKeepsTheInvariant : Prop :=
  ∀ s t : State, Inv s → step s = .next t → Inv t

/-- R33: a command writes only the components its row of the access matrix marks `W`; the fault record is
written only by a command that faults, by CLRERR and by RESET. -/
def Obligations.CommandsWriteOnlyTheirComponents : Prop :=
  ∀ (i : Instr) (s t : State), exec i s = .next t →
    t.cfg = s.cfg ∧ t.inbox = s.inbox ∧
    (∀ c, c ≠ .record → c ∉ mayWrite i → SameIn s t c) ∧
    (Completed t → Component.record ∉ mayWrite i → SameIn s t .record)

/-- The read commands leave all state unchanged when they do not fault, change only `ERR` and `FINFO` when they
do, and give the same answer when repeated (R67). -/
def Obligations.ReadsHaveNoSideEffect : Prop :=
  ∀ (i : Instr) (s t : State), isRead i = true → exec i s = .next t →
    t = { s with rsp := t.rsp, err := t.err, finfo := t.finfo } ∧
    (Completed t → t = { s with rsp := t.rsp }) ∧
    ∀ u, exec i t = .next u → u.rsp = t.rsp

/-- R300 and R301: a faulting command raises a code that R290 lists for it, is answered and recorded as R300 says, and
leaves besides only what R301's table lists; an illegal word leaves nothing. -/
def Obligations.FaultsLeaveOnlyWhatIsListed : Prop :=
  (∀ (i : Instr) (s t : State), exec i s = .next t → ¬ Completed t →
    ∃ code info, code ∈ mayRaise i ∧ info < 2 ^ 24 ∧
      ((i = .encode ∨ i = .unpack) ∧ t = faulted { s with ebuf := [] } code info ∨
       i = .decode ∧ t = faulted { s with obuf := [] } code info ∨
       i = .gentab ∧ t = faulted { s with ctab := noCodes, ctabv := false } code info ∨
       i ∉ [.encode, .unpack, .decode, .gentab] ∧ t = faulted s code info)) ∧
  (∀ (s : State) (w : Word) (rest : List HostEvent), s.inbox = .command w :: rest → (¬ ∃ i, decode w = .ok i) →
    step s = .next (faulted { s with inbox := rest } 1 (w.toNat % 2 ^ 24)))

/-- R302: through any sequence of command words, legal or not, without CLRERR and RESET, the record keeps the first
fault's code and information; and with `ERR` = 0 at the start, `ERR` = 0 at the end says exactly that no command of
the sequence faulted. -/
def Obligations.FirstFaultIsKept : Prop :=
  ∀ (words : List Word) (s t : State), (∀ w ∈ words, decode w ≠ .ok .clrerr ∧ decode w ≠ .ok .reset) →
    runWords words s = some t →
    (s.err ≠ 0 → t.err = s.err ∧ t.finfo = s.finfo) ∧
    (∀ before w after u v, words = before ++ w :: after → runWords before s = some u → u.err = 0 →
      step (present u w) = .next v → ¬ Completed v →
      v.rsp = some (answer t.err.toNat t.finfo.toNat) ∧ t.err ≠ 0) ∧
    (s.err = 0 →
      (t.err = 0 ↔ ∀ before w after, words = before ++ w :: after →
        ∃ u v, runWords before s = some u ∧ step (present u w) = .next v ∧ Completed v))

/-- No command's behaviour depends on `ERR` or `FINFO`, except RDSTAT and RDFINFO, which show them, and CLRERR
and RESET, which clear them (R28): two runs that differ only in the record differ only in the record. -/
def Obligations.BehaviourIgnoresTheFaultRecord : Prop :=
  ∀ (i : Instr) (s t : State) (e : BitVec 4) (f : Info), i ≠ .rdstat → i ≠ .rdfinfo → exec i s = .next t →
    ∃ e' f', exec i { s with err := e, finfo := f } = .next { t with err := e', finfo := f' }

/-- R32: no hidden state. What a command does depends on nothing but the components of R20 and the capacities: not on
the earlier response, nor on what the host will do next, the model's own fields (log 5). -/
def Obligations.NoCommandDependsOnHiddenState : Prop :=
  ∀ (i : Instr) (s t : State) (events : List HostEvent) (r : Option Word), exec i s = .next t →
    exec i { s with inbox := events, rsp := r } = .next { t with inbox := events }

/-- R25: `ROOTV` is set by SETROOT and cleared by CLRTREE and RESET; `CTABV` is set by a GENTAB that does not fault and
cleared by one that does, by CLRTREE, LDLEAF, LDINT, SETROOT and RESET; nothing else changes either flag. -/
def Obligations.FlagsChangeOnlyByTheirCommands : Prop :=
  ∀ (i : Instr) (s t : State), exec i s = .next t →
    (t.rootv = s.rootv ∨ (t.rootv = true ∧ ∃ n, i = .setroot n) ∨ (t.rootv = false ∧ (i = .clrtree ∨ i = .reset))) ∧
    (t.ctabv = s.ctabv ∨ (t.ctabv = true ∧ i = .gentab) ∨
      (t.ctabv = false ∧ (i = .gentab ∨ i = .clrtree ∨ i = .reset ∨ (∃ n, i = .setroot n) ∨ (∃ n x, i = .ldleaf n x) ∨
        ∃ n l r, i = .ldint n l r))) ∧
    (i = .gentab → (t.ctabv = true ↔ Completed t)) ∧
    (∀ n, i = .setroot n → Completed t → t.rootv = true) ∧
    (i = .clrtree ∨ i = .reset → t.rootv = false ∧ t.ctabv = false)

/-- R71: whenever a step changes the tree, the root or `ROOTV`, the table is invalid afterwards; only
GENTAB makes it valid; a completed CLRTREE, LDLEAF, LDINT or SETROOT invalidates it whatever it wrote; and while
it is invalid RDLEN, RDCBIT, ENCSYM, ENCODE and DECODE raise `E_NOTAB`. -/
def Obligations.StaleTablesAreNeverUsed : Prop :=
  ∀ (i : Instr) (s t : State), exec i s = .next t →
    (t.tree ≠ s.tree ∨ t.root ≠ s.root ∨ t.rootv ≠ s.rootv → t.ctabv = false) ∧
    (t.ctab ≠ s.ctab → i = .gentab ∨ i = .reset) ∧
    (s.ctabv = false → t.ctabv = true → i = .gentab) ∧
    (Completed t → (i = .clrtree ∨ (∃ n x, i = .ldleaf n x) ∨ (∃ n l r, i = .ldint n l r) ∨ ∃ n, i = .setroot n) →
      t.ctabv = false) ∧
    (s.ctabv = false →
      ((∃ x, i = .rdlen x) ∨ (∃ p x, i = .rdcbit p x) ∨ (∃ x, i = .encsym x) ∨ i = .encode ∨ i = .decode) →
      t.rsp = some (answer 7 0))

/-- R23 and R215: `PAD` is written by a completed PACK or UNPACK, with a count of 1 to 8, and by RESET, with 0,
and by nothing else; RDPAD returns it; and no other command's result depends on it. -/
def Obligations.PadRecordsThePaddingCount : Prop :=
  decode 0xB8000000 = .ok .rdpad ∧
  (∀ s : State, exec .rdpad s = .next (completed s s.pad.toNat)) ∧
  (∀ (i : Instr) (s t : State), exec i s = .next t →
    (i = .reset ∧ t.pad = 0) ∨
    ((i = .pack ∨ i = .unpack) ∧ Completed t ∧ 1 ≤ t.pad.toNat ∧ t.pad.toNat ≤ 8) ∨
    (t.pad = s.pad ∧ ((i = .pack ∨ i = .unpack) → ¬ Completed t) ∧ i ≠ .reset)) ∧
  (∀ s t : State, exec .pack s = .next t → t.pad.toNat = 8 - s.elen % 8) ∧
  (∀ s t : State, exec .unpack s = .next t → Completed t → t.pad = s.ibuf.getD 0 0) ∧
  (∀ (i : Instr) (s t : State) (p : Byte), i ≠ .rdpad → exec i s = .next t →
    ∃ p', exec i { s with pad := p } = .next { t with pad := p' })

/-- The data commands depend only on what the access matrix lets them read (R33, R144): GENTAB on the codebook,
ENCODE on the table and the input, PACK on the stream, UNPACK on the input, DECODE on the codebook, `CTABV` and
the stream, with the capacities; whatever else differs between two states, they answer the same and write the
same output. -/
def Obligations.DataCommandsDependOnlyOnTheirInputs : Prop :=
  ∀ s1 s2 t1 t2 : State, s1.cfg = s2.cfg →
    (s1.tree = s2.tree → s1.root = s2.root → s1.rootv = s2.rootv →
      exec .gentab s1 = .next t1 → exec .gentab s2 = .next t2 →
      t1.rsp = t2.rsp ∧ t1.ctab = t2.ctab ∧ t1.ctabv = t2.ctabv) ∧
    (s1.ctab = s2.ctab → s1.ctabv = s2.ctabv → s1.ibuf = s2.ibuf →
      exec .encode s1 = .next t1 → exec .encode s2 = .next t2 → t1.rsp = t2.rsp ∧ t1.ebuf = t2.ebuf) ∧
    (s1.ebuf = s2.ebuf →
      exec .pack s1 = .next t1 → exec .pack s2 = .next t2 →
      t1.rsp = t2.rsp ∧ t1.obuf = t2.obuf ∧ t1.pad = t2.pad) ∧
    (s1.ibuf = s2.ibuf →
      exec .unpack s1 = .next t1 → exec .unpack s2 = .next t2 → t1.rsp = t2.rsp ∧ t1.ebuf = t2.ebuf) ∧
    (s1.tree = s2.tree → s1.root = s2.root → s1.rootv = s2.rootv → s1.ctabv = s2.ctabv → s1.ebuf = s2.ebuf →
      exec .decode s1 = .next t1 → exec .decode s2 = .next t2 → t1.rsp = t2.rsp ∧ t1.obuf = t2.obuf)
end

