-- ==== Sys2Proof/Laws/State.lean ====
section
/-! SUPPORT. What each state update does to each field: one lemma per field per update, true by rfl. -/

namespace Sys2Proof.Machine

/-! `State.complete` -/

@[simp] theorem State.complete_tree (s : State) (v : Nat) : (s.complete v).tree = s.tree := rfl
@[simp] theorem State.complete_root (s : State) (v : Nat) : (s.complete v).root = s.root := rfl
@[simp] theorem State.complete_rootv (s : State) (v : Nat) : (s.complete v).rootv = s.rootv := rfl
@[simp] theorem State.complete_ctab (s : State) (v : Nat) : (s.complete v).ctab = s.ctab := rfl
@[simp] theorem State.complete_ctabv (s : State) (v : Nat) : (s.complete v).ctabv = s.ctabv := rfl
@[simp] theorem State.complete_ibuf (s : State) (v : Nat) : (s.complete v).ibuf = s.ibuf := rfl
@[simp] theorem State.complete_ebuf (s : State) (v : Nat) : (s.complete v).ebuf = s.ebuf := rfl
@[simp] theorem State.complete_obuf (s : State) (v : Nat) : (s.complete v).obuf = s.obuf := rfl
@[simp] theorem State.complete_pad (s : State) (v : Nat) : (s.complete v).pad = s.pad := rfl
@[simp] theorem State.complete_err (s : State) (v : Nat) : (s.complete v).err = s.err := rfl
@[simp] theorem State.complete_finfo (s : State) (v : Nat) : (s.complete v).finfo = s.finfo := rfl
@[simp] theorem State.complete_cfg (s : State) (v : Nat) : (s.complete v).cfg = s.cfg := rfl
@[simp] theorem State.complete_inbox (s : State) (v : Nat) : (s.complete v).inbox = s.inbox := rfl
@[simp] theorem State.complete_rsp (s : State) (v : Nat) : (s.complete v).rsp = some (response 0 (infoOf v)) := rfl

/-! `State.raise` -/

@[simp] theorem State.raise_tree (s : State) (e : Raised) : (s.raise e).tree = s.tree := rfl
@[simp] theorem State.raise_root (s : State) (e : Raised) : (s.raise e).root = s.root := rfl
@[simp] theorem State.raise_rootv (s : State) (e : Raised) : (s.raise e).rootv = s.rootv := rfl
@[simp] theorem State.raise_ctab (s : State) (e : Raised) : (s.raise e).ctab = s.ctab := rfl
@[simp] theorem State.raise_ctabv (s : State) (e : Raised) : (s.raise e).ctabv = s.ctabv := rfl
@[simp] theorem State.raise_ibuf (s : State) (e : Raised) : (s.raise e).ibuf = s.ibuf := rfl
@[simp] theorem State.raise_ebuf (s : State) (e : Raised) : (s.raise e).ebuf = s.ebuf := rfl
@[simp] theorem State.raise_obuf (s : State) (e : Raised) : (s.raise e).obuf = s.obuf := rfl
@[simp] theorem State.raise_pad (s : State) (e : Raised) : (s.raise e).pad = s.pad := rfl
@[simp] theorem State.raise_err (s : State) (e : Raised) : (s.raise e).err = if s.err = 0 then e.code.number else s.err := rfl
@[simp] theorem State.raise_finfo (s : State) (e : Raised) : (s.raise e).finfo = if s.err = 0 then e.info else s.finfo := rfl
@[simp] theorem State.raise_cfg (s : State) (e : Raised) : (s.raise e).cfg = s.cfg := rfl
@[simp] theorem State.raise_inbox (s : State) (e : Raised) : (s.raise e).inbox = s.inbox := rfl
@[simp] theorem State.raise_rsp (s : State) (e : Raised) : (s.raise e).rsp = some (response e.code.number e.info) := rfl

/-! `State.clearRecord` -/

@[simp] theorem State.clearRecord_tree (s : State) : s.clearRecord.tree = s.tree := rfl
@[simp] theorem State.clearRecord_root (s : State) : s.clearRecord.root = s.root := rfl
@[simp] theorem State.clearRecord_rootv (s : State) : s.clearRecord.rootv = s.rootv := rfl
@[simp] theorem State.clearRecord_ctab (s : State) : s.clearRecord.ctab = s.ctab := rfl
@[simp] theorem State.clearRecord_ctabv (s : State) : s.clearRecord.ctabv = s.ctabv := rfl
@[simp] theorem State.clearRecord_ibuf (s : State) : s.clearRecord.ibuf = s.ibuf := rfl
@[simp] theorem State.clearRecord_ebuf (s : State) : s.clearRecord.ebuf = s.ebuf := rfl
@[simp] theorem State.clearRecord_obuf (s : State) : s.clearRecord.obuf = s.obuf := rfl
@[simp] theorem State.clearRecord_pad (s : State) : s.clearRecord.pad = s.pad := rfl
@[simp] theorem State.clearRecord_err (s : State) : s.clearRecord.err = 0 := rfl
@[simp] theorem State.clearRecord_finfo (s : State) : s.clearRecord.finfo = 0 := rfl
@[simp] theorem State.clearRecord_cfg (s : State) : s.clearRecord.cfg = s.cfg := rfl
@[simp] theorem State.clearRecord_inbox (s : State) : s.clearRecord.inbox = s.inbox := rfl
@[simp] theorem State.clearRecord_rsp (s : State) : s.clearRecord.rsp = s.rsp := rfl

/-! `State.invalidateTable` -/

@[simp] theorem State.invalidateTable_tree (s : State) : s.invalidateTable.tree = s.tree := rfl
@[simp] theorem State.invalidateTable_root (s : State) : s.invalidateTable.root = s.root := rfl
@[simp] theorem State.invalidateTable_rootv (s : State) : s.invalidateTable.rootv = s.rootv := rfl
@[simp] theorem State.invalidateTable_ctab (s : State) : s.invalidateTable.ctab = s.ctab := rfl
@[simp] theorem State.invalidateTable_ctabv (s : State) : s.invalidateTable.ctabv = false := rfl
@[simp] theorem State.invalidateTable_ibuf (s : State) : s.invalidateTable.ibuf = s.ibuf := rfl
@[simp] theorem State.invalidateTable_ebuf (s : State) : s.invalidateTable.ebuf = s.ebuf := rfl
@[simp] theorem State.invalidateTable_obuf (s : State) : s.invalidateTable.obuf = s.obuf := rfl
@[simp] theorem State.invalidateTable_pad (s : State) : s.invalidateTable.pad = s.pad := rfl
@[simp] theorem State.invalidateTable_err (s : State) : s.invalidateTable.err = s.err := rfl
@[simp] theorem State.invalidateTable_finfo (s : State) : s.invalidateTable.finfo = s.finfo := rfl
@[simp] theorem State.invalidateTable_cfg (s : State) : s.invalidateTable.cfg = s.cfg := rfl
@[simp] theorem State.invalidateTable_inbox (s : State) : s.invalidateTable.inbox = s.inbox := rfl
@[simp] theorem State.invalidateTable_rsp (s : State) : s.invalidateTable.rsp = s.rsp := rfl

/-! `State.installTable` -/

@[simp] theorem State.installTable_tree (s : State) (t : CodeTable) : (s.installTable t).tree = s.tree := rfl
@[simp] theorem State.installTable_root (s : State) (t : CodeTable) : (s.installTable t).root = s.root := rfl
@[simp] theorem State.installTable_rootv (s : State) (t : CodeTable) : (s.installTable t).rootv = s.rootv := rfl
@[simp] theorem State.installTable_ctab (s : State) (t : CodeTable) : (s.installTable t).ctab = t := rfl
@[simp] theorem State.installTable_ctabv (s : State) (t : CodeTable) : (s.installTable t).ctabv = true := rfl
@[simp] theorem State.installTable_ibuf (s : State) (t : CodeTable) : (s.installTable t).ibuf = s.ibuf := rfl
@[simp] theorem State.installTable_ebuf (s : State) (t : CodeTable) : (s.installTable t).ebuf = s.ebuf := rfl
@[simp] theorem State.installTable_obuf (s : State) (t : CodeTable) : (s.installTable t).obuf = s.obuf := rfl
@[simp] theorem State.installTable_pad (s : State) (t : CodeTable) : (s.installTable t).pad = s.pad := rfl
@[simp] theorem State.installTable_err (s : State) (t : CodeTable) : (s.installTable t).err = s.err := rfl
@[simp] theorem State.installTable_finfo (s : State) (t : CodeTable) : (s.installTable t).finfo = s.finfo := rfl
@[simp] theorem State.installTable_cfg (s : State) (t : CodeTable) : (s.installTable t).cfg = s.cfg := rfl
@[simp] theorem State.installTable_inbox (s : State) (t : CodeTable) : (s.installTable t).inbox = s.inbox := rfl
@[simp] theorem State.installTable_rsp (s : State) (t : CodeTable) : (s.installTable t).rsp = s.rsp := rfl

/-! `State.dropTable` -/

@[simp] theorem State.dropTable_tree (s : State) : s.dropTable.tree = s.tree := rfl
@[simp] theorem State.dropTable_root (s : State) : s.dropTable.root = s.root := rfl
@[simp] theorem State.dropTable_rootv (s : State) : s.dropTable.rootv = s.rootv := rfl
@[simp] theorem State.dropTable_ctab (s : State) : s.dropTable.ctab = noCodes := rfl
@[simp] theorem State.dropTable_ctabv (s : State) : s.dropTable.ctabv = false := rfl
@[simp] theorem State.dropTable_ibuf (s : State) : s.dropTable.ibuf = s.ibuf := rfl
@[simp] theorem State.dropTable_ebuf (s : State) : s.dropTable.ebuf = s.ebuf := rfl
@[simp] theorem State.dropTable_obuf (s : State) : s.dropTable.obuf = s.obuf := rfl
@[simp] theorem State.dropTable_pad (s : State) : s.dropTable.pad = s.pad := rfl
@[simp] theorem State.dropTable_err (s : State) : s.dropTable.err = s.err := rfl
@[simp] theorem State.dropTable_finfo (s : State) : s.dropTable.finfo = s.finfo := rfl
@[simp] theorem State.dropTable_cfg (s : State) : s.dropTable.cfg = s.cfg := rfl
@[simp] theorem State.dropTable_inbox (s : State) : s.dropTable.inbox = s.inbox := rfl
@[simp] theorem State.dropTable_rsp (s : State) : s.dropTable.rsp = s.rsp := rfl

/-! `State.hardReset` -/

@[simp] theorem State.hardReset_tree (s : State) : s.hardReset.tree = noNodes := rfl
@[simp] theorem State.hardReset_root (s : State) : s.hardReset.root = 0 := rfl
@[simp] theorem State.hardReset_rootv (s : State) : s.hardReset.rootv = false := rfl
@[simp] theorem State.hardReset_ctab (s : State) : s.hardReset.ctab = noCodes := rfl
@[simp] theorem State.hardReset_ctabv (s : State) : s.hardReset.ctabv = false := rfl
@[simp] theorem State.hardReset_ibuf (s : State) : s.hardReset.ibuf = [] := rfl
@[simp] theorem State.hardReset_ebuf (s : State) : s.hardReset.ebuf = [] := rfl
@[simp] theorem State.hardReset_obuf (s : State) : s.hardReset.obuf = [] := rfl
@[simp] theorem State.hardReset_pad (s : State) : s.hardReset.pad = 0 := rfl
@[simp] theorem State.hardReset_err (s : State) : s.hardReset.err = 0 := rfl
@[simp] theorem State.hardReset_finfo (s : State) : s.hardReset.finfo = 0 := rfl
@[simp] theorem State.hardReset_cfg (s : State) : s.hardReset.cfg = s.cfg := rfl
@[simp] theorem State.hardReset_inbox (s : State) : s.hardReset.inbox = s.inbox := rfl
@[simp] theorem State.hardReset_rsp (s : State) : s.hardReset.rsp = none := rfl

/-! Reset (R34) -/

@[simp] theorem State.resetWith_tree (c : Config) : (State.resetWith c).tree = noNodes := rfl
@[simp] theorem State.resetWith_root (c : Config) : (State.resetWith c).root = 0 := rfl
@[simp] theorem State.resetWith_rootv (c : Config) : (State.resetWith c).rootv = false := rfl
@[simp] theorem State.resetWith_ctab (c : Config) : (State.resetWith c).ctab = noCodes := rfl
@[simp] theorem State.resetWith_ctabv (c : Config) : (State.resetWith c).ctabv = false := rfl
@[simp] theorem State.resetWith_ibuf (c : Config) : (State.resetWith c).ibuf = [] := rfl
@[simp] theorem State.resetWith_ebuf (c : Config) : (State.resetWith c).ebuf = [] := rfl
@[simp] theorem State.resetWith_obuf (c : Config) : (State.resetWith c).obuf = [] := rfl
@[simp] theorem State.resetWith_pad (c : Config) : (State.resetWith c).pad = 0 := rfl
@[simp] theorem State.resetWith_err (c : Config) : (State.resetWith c).err = 0 := rfl
@[simp] theorem State.resetWith_finfo (c : Config) : (State.resetWith c).finfo = 0 := rfl
@[simp] theorem State.resetWith_cfg (c : Config) : (State.resetWith c).cfg = c := rfl
@[simp] theorem State.resetWith_inbox (c : Config) : (State.resetWith c).inbox = [] := rfl
@[simp] theorem State.resetWith_rsp (c : Config) : (State.resetWith c).rsp = none := rfl

end Sys2Proof.Machine
end

