-- ==== Sys2Proof/Laws/Ops.lean ====
section
/-! SUPPORT. One lemma per shared operation: the tables, the response word, fault entry, host events, operand
forms, and bits of bytes. -/

namespace Sys2Proof.Machine

open Sys2Proof.Safety

/-! The two tables -/

@[simp] theorem nodeAt_noNodes (n : NodeIdx) : nodeAt noNodes n = none := by
  simp [nodeAt, noNodes]

theorem nodeAt_setNode (t : Tree) (n m : NodeIdx) (x : Node) :
    nodeAt (setNode t n x) m = if m = n then some x else nodeAt t m := by
  simp only [nodeAt, setNode, Vector.getElem_set]
  by_cases h : m = n
  · simp [h]
  · rw [if_neg fun hv => h (Fin.ext hv).symm, if_neg h]

@[simp] theorem nodeAt_setNode_self (t : Tree) (n : NodeIdx) (x : Node) :
    nodeAt (setNode t n x) n = some x := by
  simp [nodeAt_setNode]

theorem nodeAt_setNode_ne (t : Tree) (n m : NodeIdx) (x : Node) (h : m ≠ n) :
    nodeAt (setNode t n x) m = nodeAt t m := by
  simp [nodeAt_setNode, h]

@[simp] theorem codeOf_noCodes (sym : Byte) : codeOf noCodes sym = [] := by
  simp [codeOf, noCodes]

theorem codeOf_setCode (t : CodeTable) (a b : Byte) (c : BitString) :
    codeOf (setCode t a c) b = if b = a then c else codeOf t b := by
  simp only [codeOf, setCode, Vector.getElem_set]
  by_cases h : b = a
  · simp [h]
  · rw [if_neg fun hv => h (BitVec.eq_of_toNat_eq hv).symm, if_neg h]

/-- Two code tables with the same code for every Symbol are equal. -/
theorem codeTable_ext {t u : CodeTable} (h : ∀ sym, codeOf t sym = codeOf u sym) : t = u := by
  apply Vector.ext
  intro i hi
  simpa [codeOf, Nat.mod_eq_of_lt hi] using h (BitVec.ofNat 8 i)

/-- Two trees with the same entry at every index are equal. -/
theorem tree_ext {t u : Tree} (h : ∀ n, nodeAt t n = nodeAt u n) : t = u :=
  Vector.ext fun i hi => h ⟨i, hi⟩

/-! Operand forms -/

@[simp] theorem nodeIdx?_val (n : NodeIdx) : nodeIdx? n.val = some n := by
  simp [nodeIdx?, n.isLt]

theorem nodeIdx?_of_lt {n : Nat} (h : n < 511) : nodeIdx? n = some ⟨n, h⟩ := by
  simp [nodeIdx?, h]

theorem nodeIdx?_of_ge {n : Nat} (h : 510 < n) : nodeIdx? n = none := by
  simp [nodeIdx?]; omega

theorem walkNode_of_loaded {t : Tree} {n : NodeIdx} {x : Node} (h : nodeAt t n = some x) : walkNode t n = x := by
  simp [walkNode, h]

@[simp] theorem child_false (l r : NodeIdx) : child l r false = l := rfl

@[simp] theorem child_true (l r : NodeIdx) : child l r true = r := rfl

/-! The response word -/

theorem response_eq_answer (c : BitVec 4) (d : Info) : response c d = answer c.toNat d.toNat := by
  apply BitVec.eq_of_toNat_eq
  have hc := c.isLt
  have hd := d.isLt
  simp only [response, answer, BitVec.toNat_append, BitVec.toNat_ofNat, Nat.shiftLeft_eq]
  rw [Nat.or_zero, Nat.mul_comm, ← Nat.two_pow_add_eq_or_of_lt hd]
  omega

theorem response_infoOf (c : BitVec 4) (n : Nat) : response c (infoOf n) = answer c.toNat n := by
  rw [response_eq_answer]
  simp [infoOf, answer]

theorem answer_toNat (c d : Nat) (hc : c < 16) : (answer c d).toNat = c * 2 ^ 28 + d % 2 ^ 24 := by
  simp only [answer, BitVec.toNat_ofNat]
  omega

theorem responseCode_answer (c d : Nat) (hc : c < 16) : responseCode (answer c d) = c := by
  rw [responseCode, answer_toNat c d hc]
  omega

/-- Completing leaves the response and nothing else changed (R96). -/
theorem complete_eq_completed (s : State) (v : Nat) : s.complete v = completed s v := by
  simp [State.complete, completed, response_infoOf]

/-- Fault entry in the terms of R300. -/
theorem raise_eq (s : State) (e : Raised) : s.raise e = faulted s e.code.number.toNat e.info.toNat := by
  simp [State.raise, faulted, response_eq_answer]

theorem faulted_infoOf (s : State) (c n : Nat) : faulted s c (infoOf n).toNat = faulted s c n := by
  have h : BitVec.ofNat 24 (n % 2 ^ 24) = BitVec.ofNat 24 n := by
    apply BitVec.eq_of_toNat_eq
    simp
  simp [faulted, answer, infoOf, BitVec.toNat_ofNat, ← h]

/-- Fault entry for a fault raised with a natural number (R13, R300). -/
theorem raise_eq_faulted (s : State) (c : FaultCode) (n : Nat) :
    s.raise (raised c n) = faulted s c.number.toNat n := by
  rw [raise_eq]
  exact faulted_infoOf s _ n

/-- An illegal word in the terms of R93. -/
theorem illegalCommand_eq (s : State) (w : Word) : s.illegalCommand w = faulted s 1 (w.toNat % 2 ^ 24) := by
  rw [State.illegalCommand, raise_eq, illegalInfo, ← infoOf, faulted_infoOf]
  simp [field, FaultCode.number]

/-- No fault code is 0 or 14 (R290). -/
theorem FaultCode.number_ne (c : FaultCode) : c.number ≠ 0 ∧ c.number ≠ 14 := by
  cases c <;> decide

/-! Host events -/

theorem nextEvent_cons (s : State) (ev : HostEvent) (rest : List HostEvent) (h : s.inbox = ev :: rest) :
    s.nextEvent = some (ev, { s with inbox := rest }) := by
  simp [State.nextEvent, h]

theorem nextEvent_nil (s : State) (h : s.inbox = []) : s.nextEvent = none := by
  simp [State.nextEvent, h]

/-! Bits of bytes -/

/-- The first stream bit of a group is the most significant of its byte (R63). -/
theorem bitOfByte_byteOfBits (f : Nat → Bit) (j : Nat) (hj : j < 8) : bitOfByte (byteOfBits f) j = f j := by
  have key : ∀ b0 b1 b2 b3 b4 b5 b6 b7 : Bool, ∀ k : Fin 8,
      (BitVec.ofNat 8 (128 * b0.toNat + 64 * b1.toNat + 32 * b2.toNat + 16 * b3.toNat
        + 8 * b4.toNat + 4 * b5.toNat + 2 * b6.toNat + b7.toNat)).getLsbD (7 - k.val)
      = [b0, b1, b2, b3, b4, b5, b6, b7].getD k.val false := by decide
  have h := key (f 0) (f 1) (f 2) (f 3) (f 4) (f 5) (f 6) (f 7) ⟨j, hj⟩
  rw [bitOfByte, byteOfBits, h]
  interval_cases j <;> rfl

/-- Two bytes with the same eight stream bits are equal (R63). -/
theorem byte_ext {a b : Byte} (h : ∀ j, j < 8 → bitOfByte a j = bitOfByte b j) : a = b := by
  apply BitVec.eq_of_getLsbD_eq
  intro i hi
  have := h (7 - i) (by omega)
  simpa [bitOfByte, show 7 - (7 - i) = i by omega] using this

end Sys2Proof.Machine
end

