-- ==== Sys2Proof/Laws/CodeTable.lean ====
section
/-! SUPPORT. What the walk of GENTAB does: it records the paths of an unfolded tree, and completes exactly on a
tree that unfolds with fresh, distinct Symbols and no deeper than its room. -/

namespace Sys2Proof.Machine

open Sys2Proof.Safety

/-- The longest path of a tree. -/
def depthOf : HTree → Nat
  | .leaf _ => 0
  | .node l r => max (depthOf l) (depthOf r) + 1

/-- Writing a list of codes into a table, in order. -/
def recordAll (tab : CodeTable) : List (Byte × BitString) → CodeTable
  | [] => tab
  | c :: cs => recordAll (setCode tab c.1 c.2) cs

/-- The paths of a tree, each after a common beginning. -/
def pathsFrom (p : BitString) (h : HTree) : List (Byte × BitString) := h.paths.map fun c => (c.1, p ++ c.2)

theorem recordAll_append (tab : CodeTable) (cs ds : List (Byte × BitString)) :
    recordAll tab (cs ++ ds) = recordAll (recordAll tab cs) ds := by
  induction cs generalizing tab with
  | nil => rfl
  | cons c cs ih => exact ih _

/-- A Symbol outside the list keeps its code. -/
theorem codeOf_recordAll_of_not_mem (tab : CodeTable) (cs : List (Byte × BitString)) (sym : Byte)
    (h : sym ∉ cs.map Prod.fst) : codeOf (recordAll tab cs) sym = codeOf tab sym := by
  induction cs generalizing tab with
  | nil => rfl
  | cons c cs ih =>
    simp only [List.map_cons, List.mem_cons, not_or] at h
    rw [recordAll, ih _ h.2, codeOf_setCode, if_neg h.1]

/-- A Symbol listed once gets the listed code. -/
theorem codeOf_recordAll_of_mem (tab : CodeTable) (cs : List (Byte × BitString)) (c : Byte × BitString)
    (hc : c ∈ cs) (hd : (cs.map Prod.fst).Nodup) : codeOf (recordAll tab cs) c.1 = c.2 := by
  induction cs generalizing tab with
  | nil => simp at hc
  | cons d cs ih =>
    simp only [List.map_cons, List.nodup_cons] at hd
    rcases List.mem_cons.1 hc with rfl | hm
    · rw [recordAll, codeOf_recordAll_of_not_mem _ _ _ hd.1, codeOf_setCode, if_pos rfl]
    · exact ih _ hm hd.2

@[simp] theorem pathsFrom_leaf (p : BitString) (sym : Byte) : pathsFrom p (.leaf sym) = [(sym, p)] := by
  simp [pathsFrom, HTree.paths]

theorem pathsFrom_node (p : BitString) (l r : HTree) :
    pathsFrom p (.node l r) = pathsFrom (p ++ [false]) l ++ pathsFrom (p ++ [true]) r := by
  simp [pathsFrom, HTree.paths, Function.comp_def]

@[simp] theorem pathsFrom_nil (h : HTree) : pathsFrom [] h = h.paths := by
  simp [pathsFrom]

@[simp] theorem pathsFrom_symbols (p : BitString) (h : HTree) : (pathsFrom p h).map Prod.fst = h.symbols := by
  simp [pathsFrom, HTree.symbols, Function.comp_def]

theorem symbols_node (l r : HTree) : (HTree.node l r).symbols = l.symbols ++ r.symbols := by
  simp [HTree.symbols, HTree.paths, Function.comp_def]

@[simp] theorem symbols_leaf (sym : Byte) : (HTree.leaf sym).symbols = [sym] := rfl

/-- Unfolding gives at most one abstract tree (R162). -/
theorem unfolds_unique {t : Tree} {n : NodeIdx} {a b : HTree} (ha : Unfolds t n a) (hb : Unfolds t n b) : a = b := by
  induction ha generalizing b with
  | leaf h => cases hb with
    | leaf h' => simp_all
    | node h' => simp_all
  | node h _ _ ihl ihr => cases hb with
    | leaf h' => simp_all
    | node h' hl hr =>
      simp only [h, Option.some.injEq, Node.internal.injEq] at h'
      obtain ⟨rfl, rfl⟩ := h'
      rw [ihl hl, ihr hr]

/-! The four cases of the walk (R170) -/

theorem visit_unloaded {t : Tree} {n : NodeIdx} (h : nodeAt t n = none) (room : Nat) (p : BitString) (acc : Walk) :
    visit t room n p acc = .error (raised .tree n.val) := visit.eq_1 t n p acc room h

theorem visit_leaf {t : Tree} {n : NodeIdx} {sym : Byte} (h : nodeAt t n = some (.leaf sym)) (room : Nat)
    (p : BitString) (acc : Walk) :
    visit t room n p acc =
      if codeOf acc.table sym = [] then .ok ⟨setCode acc.table sym p, acc.count + 1⟩
      else .error (raised .dupsym n.val) := visit.eq_2 t n p acc room sym h

theorem visit_no_room {t : Tree} {n l r : NodeIdx} (h : nodeAt t n = some (.internal l r)) (p : BitString)
    (acc : Walk) : visit t 0 n p acc = .error (raised .depth n.val) := visit.eq_3 t n p acc l r h

theorem visit_internal {t : Tree} {n l r : NodeIdx} (h : nodeAt t n = some (.internal l r)) (room : Nat)
    (p : BitString) (acc : Walk) :
    visit t (room + 1) n p acc =
      match visit t room l (p ++ [false]) acc with
      | .error e => .error e
      | .ok acc' => visit t room r (p ++ [true]) acc' := visit.eq_4 t n p acc room l r h

/-- A Symbol without a code after a tree's paths were recorded is no Symbol of that tree. -/
theorem not_mem_of_uncoded {tab : CodeTable} {q : BitString} {a : HTree} {x : Byte} (hq : q ≠ [])
    (hn : a.symbols.Nodup) (hx : codeOf (recordAll tab (pathsFrom q a)) x = []) : x ∉ a.symbols := by
  intro hm
  rw [← pathsFrom_symbols q a, List.mem_map] at hm
  obtain ⟨c, hc, rfl⟩ := hm
  rw [codeOf_recordAll_of_mem tab _ c hc (by simpa using hn)] at hx
  obtain ⟨d, -, rfl⟩ := List.mem_map.1 hc
  simp_all

/-- What a completed walk has done: it has exhibited an unfolding, with distinct Symbols that had no code, and
recorded its paths. -/
theorem visit_ok {t : Tree} {room : Nat} {n : NodeIdx} {p : BitString} {acc acc' : Walk}
    (hv : visit t room n p acc = .ok acc') :
    ∃ h, Unfolds t n h ∧ depthOf h ≤ room ∧ h.symbols.Nodup ∧ (∀ x ∈ h.symbols, codeOf acc.table x = []) ∧
      acc' = ⟨recordAll acc.table (pathsFrom p h), acc.count + h.symbols.length⟩ := by
  induction room generalizing n p acc acc' with
  | zero =>
    cases hn : nodeAt t n with
    | none => simp [visit_unloaded hn] at hv
    | some x =>
      cases x with
      | internal l r => simp [visit_no_room hn] at hv
      | leaf sym =>
        by_cases hc : codeOf acc.table sym = []
        · simp only [visit_leaf hn, hc, if_true, Except.ok.injEq] at hv
          exact ⟨.leaf sym, .leaf hn, by simp [depthOf], by simp, by simpa using hc, by simp [← hv, recordAll]⟩
        · simp [visit_leaf hn, hc] at hv
  | succ room ih =>
    cases hn : nodeAt t n with
    | none => simp [visit_unloaded hn] at hv
    | some x =>
      cases x with
      | leaf sym =>
        by_cases hc : codeOf acc.table sym = []
        · simp only [visit_leaf hn, hc, if_true, Except.ok.injEq] at hv
          exact ⟨.leaf sym, .leaf hn, by simp [depthOf], by simp, by simpa using hc, by simp [← hv, recordAll]⟩
        · simp [visit_leaf hn, hc] at hv
      | internal l r =>
        rw [visit_internal hn] at hv
        cases hl : visit t room l (p ++ [false]) acc with
        | error e => simp [hl] at hv
        | ok mid =>
          simp only [hl] at hv
          obtain ⟨a, ua, da, na, fa, ea⟩ := ih hl
          obtain ⟨b, ub, db, nb, fb, eb⟩ := ih hv
          subst ea
          have hne : ∀ x ∈ b.symbols, x ∉ a.symbols := fun x hx => not_mem_of_uncoded (by simp) na (fb x hx)
          refine ⟨.node a b, .node hn ua ub, by simp [depthOf]; omega, ?_, ?_, ?_⟩
          · rw [symbols_node, List.nodup_append]
            exact ⟨na, nb, fun x hx y hy e => hne y hy (e ▸ hx)⟩
          · intro x hx
            rw [symbols_node, List.mem_append] at hx
            rcases hx with hx | hx
            · exact fa x hx
            · rw [← fb x hx, codeOf_recordAll_of_not_mem _ _ _ (by simpa using hne x hx)]
          · rw [eb, pathsFrom_node, recordAll_append, symbols_node, List.length_append, Nat.add_assoc]

/-- A tree that unfolds with fresh, distinct Symbols and fits the room is walked to the end. -/
theorem visit_complete {t : Tree} {n : NodeIdx} {h : HTree} (hu : Unfolds t n h) {room : Nat} {p : BitString}
    {acc : Walk} (hd : depthOf h ≤ room) (hn : h.symbols.Nodup) (hf : ∀ x ∈ h.symbols, codeOf acc.table x = []) :
    visit t room n p acc = .ok ⟨recordAll acc.table (pathsFrom p h), acc.count + h.symbols.length⟩ := by
  induction hu generalizing room p acc with
  | leaf hx =>
    have := hf _ (List.mem_singleton_self _)
    rw [visit_leaf hx, if_pos this]
    simp [recordAll]
  | node hx _ _ ihl ihr =>
    rename_i a b _ _
    rw [symbols_node] at hn hf
    rw [List.nodup_append] at hn
    cases room with
    | zero => simp [depthOf] at hd
    | succ room =>
      simp only [depthOf, Nat.add_le_add_iff_right, Nat.max_le] at hd
      rw [visit_internal hx]
      rw [ihl hd.1 hn.1 (fun x hx => hf x (by simp [hx]))]
      simp only
      rw [ihr hd.2 hn.2.1, pathsFrom_node, recordAll_append, symbols_node, List.length_append, Nat.add_assoc]
      intro x hx
      rw [codeOf_recordAll_of_not_mem, hf x (by simp [hx])]
      rw [pathsFrom_symbols]
      exact fun hxa => hn.2.2 x hxa x hx rfl

/-- The walk raises only the three faults of a malformed codebook (R170). -/
theorem visit_error {t : Tree} {room : Nat} {n : NodeIdx} {p : BitString} {acc : Walk} {e : Raised}
    (hv : visit t room n p acc = .error e) :
    ∃ m : NodeIdx, e = raised .tree m.val ∨ e = raised .dupsym m.val ∨ e = raised .depth m.val := by
  induction room generalizing n p acc with
  | zero =>
    cases hn : nodeAt t n with
    | none => exact ⟨n, .inl (by simpa [visit_unloaded hn, eq_comm] using hv)⟩
    | some x =>
      cases x with
      | internal l r => exact ⟨n, .inr (.inr (by simpa [visit_no_room hn, eq_comm] using hv))⟩
      | leaf sym =>
        by_cases hc : codeOf acc.table sym = []
        · simp [visit_leaf hn, hc] at hv
        · exact ⟨n, .inr (.inl (by simpa [visit_leaf hn, hc, eq_comm] using hv))⟩
  | succ room ih =>
    cases hn : nodeAt t n with
    | none => exact ⟨n, .inl (by simpa [visit_unloaded hn, eq_comm] using hv)⟩
    | some x =>
      cases x with
      | leaf sym =>
        by_cases hc : codeOf acc.table sym = []
        · simp [visit_leaf hn, hc] at hv
        · exact ⟨n, .inr (.inl (by simpa [visit_leaf hn, hc, eq_comm] using hv))⟩
      | internal l r =>
        rw [visit_internal hn] at hv
        cases hl : visit t room l (p ++ [false]) acc with
        | error e' =>
          simp only [hl, Except.error.injEq] at hv
          exact ih (hv ▸ hl)
        | ok mid =>
          simp only [hl] at hv
          exact ih hv

/-- A tree is less deep than it has leaves (R163). -/
theorem depthOf_lt_symbols (h : HTree) : depthOf h < h.symbols.length := by
  induction h with
  | leaf sym => simp [depthOf]
  | node l r ihl ihr => rw [symbols_node, List.length_append]; simp only [depthOf]; omega

/-- Distinct Symbols are at most 256 (R9). -/
theorem nodup_symbols_le {l : List Byte} (h : l.Nodup) : l.length ≤ 256 := by
  have h1 : (l.map BitVec.toNat).Nodup := h.map fun a b => BitVec.eq_of_toNat_eq
  have h2 : l.map BitVec.toNat ⊆ List.range 256 := by
    intro x hx
    obtain ⟨b, -, rfl⟩ := List.mem_map.1 hx
    exact List.mem_range.2 b.isLt
  simpa using (h1.subperm h2).length_le

/-- A well-formed tree has depth at most 255 (R163). -/
theorem depthOf_le_of_nodup {h : HTree} (hn : h.symbols.Nodup) : depthOf h ≤ 255 := by
  have h1 := depthOf_lt_symbols h
  have h2 := nodup_symbols_le hn
  omega

/-- A path is no longer than the tree is deep. -/
theorem length_le_depthOf {h : HTree} {c : Byte × BitString} (hc : c ∈ h.paths) : c.2.length ≤ depthOf h := by
  induction h generalizing c with
  | leaf sym => simp_all [HTree.paths]
  | node l r ihl ihr =>
    simp only [HTree.paths, List.mem_append, List.mem_map] at hc
    rcases hc with ⟨d, hd, rfl⟩ | ⟨d, hd, rfl⟩
    · have := ihl hd; simp only [List.length_cons, depthOf]; omega
    · have := ihr hd; simp only [List.length_cons, depthOf]; omega

/-- No leaf's path runs through another leaf (R115). -/
theorem paths_not_isPrefix {h : HTree} {c d : Byte × BitString} (hn : h.symbols.Nodup) (hc : c ∈ h.paths)
    (hd : d ∈ h.paths) (hp : c.2 <+: d.2) : c.1 = d.1 := by
  induction h generalizing c d with
  | leaf sym => simp_all [HTree.paths]
  | node l r ihl ihr =>
    rw [symbols_node, List.nodup_append] at hn
    simp only [HTree.paths, List.mem_append, List.mem_map] at hc hd
    rcases hc with ⟨c', hc, rfl⟩ | ⟨c', hc, rfl⟩ <;> rcases hd with ⟨d', hd, rfl⟩ | ⟨d', hd, rfl⟩
    · exact ihl (c := c') (d := d') hn.1 hc hd (by simpa using hp)
    · simp at hp
    · simp at hp
    · exact ihr (c := c') (d := d') hn.2.1 hc hd (by simpa using hp)

theorem codes_symbols (h : HTree) : h.codes.map Prod.fst = h.symbols := by
  cases h <;> rfl

/-- Every code of a tree is a bit-string of 1 to 255 bits (R173). -/
theorem codes_length {h : HTree} (hn : h.symbols.Nodup) {c : Byte × BitString} (hc : c ∈ h.codes) :
    1 ≤ c.2.length ∧ c.2.length ≤ 255 := by
  have hd := depthOf_le_of_nodup hn
  cases h with
  | leaf sym => simp_all [HTree.codes]
  | node l r =>
    have := length_le_depthOf hc
    refine ⟨?_, by omega⟩
    simp only [HTree.codes, HTree.paths, List.mem_append, List.mem_map] at hc
    rcases hc with ⟨d, -, rfl⟩ | ⟨d, -, rfl⟩ <;> simp

/-- A table with a given code for each Symbol of a list is the recorded one. -/
theorem recordAll_isTableOf {cs : List (Byte × BitString)} (hn : (cs.map Prod.fst).Nodup) :
    IsTableOf (recordAll noCodes cs) cs :=
  ⟨fun c hc => codeOf_recordAll_of_mem _ _ c hc hn,
   fun sym hs => by rw [codeOf_recordAll_of_not_mem _ _ _ hs, codeOf_noCodes]⟩

/-- All that `generate` can answer without a fault: the empty codebook, or the code table of a well-formed tree
with the number of its leaves (R170, R172). -/
theorem generate_ok {t : Tree} {root : NodeIdx} {rootv : Bool} {w : Walk} (hg : generate t root rootv = .ok w) :
    (rootv = false ∧ w = ⟨noCodes, 0⟩) ∨
    (rootv = true ∧ ∃ h, WellFormedTree t root h ∧ w = ⟨recordAll noCodes h.codes, h.symbols.length⟩) := by
  cases rootv with
  | false => left; simpa [generate, eq_comm] using hg
  | true =>
    right
    refine ⟨rfl, ?_⟩
    cases hn : nodeAt t root with
    | none => simp [generate, hn] at hg
    | some x =>
      cases x with
      | leaf sym =>
        simp only [generate, hn, Bool.true_eq_false, if_false, Except.ok.injEq] at hg
        exact ⟨.leaf sym, ⟨.leaf hn, by simp⟩, by simp [← hg, HTree.codes, recordAll]⟩
      | internal l r =>
        simp only [generate, hn, Bool.true_eq_false, if_false] at hg
        obtain ⟨h, hu, -, hd, -, rfl⟩ := visit_ok hg
        refine ⟨h, ⟨hu, hd⟩, ?_⟩
        cases hu with
        | leaf hx => simp [hn] at hx
        | node _ _ _ => simp [HTree.codes]

/-- `generate` does not fault on a well-formed tree (R172). -/
theorem generate_complete {t : Tree} {root : NodeIdx} {h : HTree} (hw : WellFormedTree t root h) :
    generate t root true = .ok ⟨recordAll noCodes h.codes, h.symbols.length⟩ := by
  obtain ⟨hu, hn⟩ := hw
  cases hu with
  | leaf hx => simp [generate, hx, HTree.codes, recordAll]
  | node hx hl hr =>
    have := visit_complete (.node hx hl hr) (p := []) (acc := ⟨noCodes, 0⟩) (depthOf_le_of_nodup hn) hn (by simp)
    simpa [generate, hx, HTree.codes] using this

/-- `generate` faults only with the three codes of a malformed codebook (R170). -/
theorem generate_error {t : Tree} {root : NodeIdx} {rootv : Bool} {e : Raised} (hg : generate t root rootv = .error e) :
    rootv = true ∧
      ∃ m : NodeIdx, e = raised .tree m.val ∨ e = raised .dupsym m.val ∨ e = raised .depth m.val := by
  cases rootv with
  | false => simp [generate] at hg
  | true =>
    refine ⟨rfl, ?_⟩
    cases hn : nodeAt t root with
    | none => exact ⟨root, .inl (by simpa [generate, hn] using hg.symm)⟩
    | some x =>
      cases x with
      | leaf sym => simp [generate, hn] at hg
      | internal l r => exact visit_error (by simpa [generate, hn] using hg)

/-- A Symbol with a code is a leaf of the tree, and its code is that leaf's (R164). -/
theorem mem_codes_of_coded {tab : CodeTable} {h : HTree} (ht : IsTableOf tab h.codes) {x : Byte}
    (hx : codeOf tab x ≠ []) : (x, codeOf tab x) ∈ h.codes := by
  by_cases hm : x ∈ h.codes.map Prod.fst
  · obtain ⟨c, hc, rfl⟩ := List.mem_map.1 hm
    rw [ht.1 c hc]
    exact hc
  · exact absurd (ht.2 x hm) hx

/-- The code table of a well-formed tree is free of codes that begin other codes (R173). -/
theorem prefixFree_of_isTableOf {tab : CodeTable} {h : HTree} (hn : h.symbols.Nodup) (ht : IsTableOf tab h.codes) :
    PrefixFree tab := by
  intro a b hab ha hb hp
  have hma := mem_codes_of_coded ht ha
  have hmb := mem_codes_of_coded ht hb
  cases h with
  | leaf sym => simp_all [HTree.codes]
  | node l r => exact hab (paths_not_isPrefix hn hma hmb hp)

/-- The codes of a well-formed tree are 255 bits or shorter (R173). -/
theorem codeOf_length_of_isTableOf {tab : CodeTable} {h : HTree} (hn : h.symbols.Nodup)
    (ht : IsTableOf tab h.codes) (sym : Byte) : (codeOf tab sym).length ≤ 255 := by
  by_cases hx : codeOf tab sym = []
  · simp [hx]
  · exact (codes_length hn (mem_codes_of_coded ht hx)).2

/-- What a completed GENTAB leaves satisfies what R30 asks of a valid table (R170). -/
theorem generate_table {t : Tree} {root : NodeIdx} {w : Walk} (hg : generate t root true = .ok w) :
    ∃ h, WellFormedTree t root h ∧ IsTableOf w.table h.codes ∧ w.count = h.symbols.length := by
  rcases generate_ok hg with ⟨h, -⟩ | ⟨-, h, hw, rfl⟩
  · cases h
  · exact ⟨h, hw, recordAll_isTableOf (by rw [codes_symbols]; exact hw.2), rfl⟩

end Sys2Proof.Machine
end

