-- ==== Sys2Proof/Laws/Decode.lean ====
section
/-! SUPPORT. Fields of words, the decoder's reserved-bit test, and the number an encoded command is. -/

namespace Sys2Proof

theorem field_lt (w : Word) (lo len : Nat) : field w lo len < 2 ^ len := Nat.mod_lt _ (Nat.two_pow_pos len)

/-- The opcode field and the operand bits make up the word (R90). -/
theorem word_split (w : Word) : w.toNat = field w 27 5 * 2 ^ 27 + field w 0 27 := by
  have := w.isLt
  simp only [field]
  omega

theorem withReserved_ok {w : Word} {used : Nat} {i j : Instr} :
    withReserved w used i = .ok j ↔ field w used (27 - used) = 0 ∧ i = j := by
  unfold withReserved
  split <;> simp_all

/-- The number a command encodes to, when its operands fit (R94). -/
theorem encode_toNat {i : Instr} (ho : opcode i < 28) (hb : operandBits i < 2 ^ 27) :
    (encode i).toNat = opcode i * 2 ^ 27 + operandBits i := by
  rw [encode, BitVec.toNat_ofNat]
  omega

/-- A field of an encoded command, as a number. -/
theorem field_encode {i : Instr} (ho : opcode i < 28) (hb : operandBits i < 2 ^ 27) (lo len : Nat) :
    field (encode i) lo len = (opcode i * 2 ^ 27 + operandBits i) / 2 ^ lo % 2 ^ len := by
  rw [field, encode_toNat ho hb]

/-- The opcode field of an encoded command (R90). -/
theorem field_encode_opcode {i : Instr} (ho : opcode i < 28) (hb : operandBits i < 2 ^ 27) :
    field (encode i) 27 5 = opcode i := by
  rw [field_encode ho hb]
  omega

@[simp] theorem tableWord_32 (w : Nat) : tableWord 32 w = BitVec.ofNat 32 w := by
  apply BitVec.eq_of_toNat_eq
  simp [tableWord]

end Sys2Proof
end

