-- ==== Sys2Proof/Laws/Encoder.lean ====
section
/-! SUPPORT. What the loop of ENCODE does: the concatenation of the codes, or the first Symbol that has no code or
does not fit (R194). -/

namespace Sys2Proof.Machine

open Sys2Proof.Safety

@[simp] theorem encoded_nil (t : CodeTable) : encoded t [] = [] := rfl

@[simp] theorem encoded_cons (t : CodeTable) (x : Byte) (l : List Byte) :
    encoded t (x :: l) = codeOf t x ++ encoded t l := by
  simp [encoded]

@[simp] theorem encoded_append (t : CodeTable) (l m : List Byte) :
    encoded t (l ++ m) = encoded t l ++ encoded t m := by
  simp [encoded]

@[simp] theorem allCoded_nil (t : CodeTable) : AllCoded t [] := by simp [AllCoded]

@[simp] theorem allCoded_cons (t : CodeTable) (x : Byte) (l : List Byte) :
    AllCoded t (x :: l) ↔ codeOf t x ≠ [] ∧ AllCoded t l := by
  simp [AllCoded]

@[simp] theorem allCoded_append (t : CodeTable) (l m : List Byte) :
    AllCoded t (l ++ m) ↔ AllCoded t l ∧ AllCoded t m := by
  simp [AllCoded, or_imp, forall_and]

/-- Each Symbol contributes at least one bit (R194). -/
theorem length_le_encoded {t : CodeTable} {l : List Byte} (h : AllCoded t l) : l.length ≤ (encoded t l).length := by
  induction l with
  | nil => simp
  | cons x l ih =>
    rw [allCoded_cons] at h
    have := ih h.2
    have := List.length_pos_of_ne_nil h.1
    simp only [encoded_cons, List.length_append, List.length_cons]
    omega

/-- The three ways one turn of the loop can go (R194). -/
theorem encodeFrom_cons (t : CodeTable) (cap k : Nat) (e : BitString) (x : Byte) (l : List Byte) :
    encodeFrom t cap k e (x :: l) =
      if codeOf t x = [] then .error (raised .nosym k)
      else if cap < e.length + (codeOf t x).length then .error (raised .overflow k)
      else encodeFrom t cap (k + 1) (e ++ codeOf t x) l := by
  simp [encodeFrom]

/-- The loop completes when every Symbol has a code and all the codes fit. -/
theorem encodeFrom_complete {t : CodeTable} {cap : Nat} {l : List Byte} (hc : AllCoded t l) {k : Nat} {e : BitString}
    (hf : (e ++ encoded t l).length ≤ cap) : encodeFrom t cap k e l = .ok (e ++ encoded t l) := by
  induction l generalizing k e with
  | nil => simp [encodeFrom]
  | cons x l ih =>
    rw [allCoded_cons] at hc
    simp only [encoded_cons, List.length_append] at hf
    rw [encodeFrom_cons, if_neg hc.1, if_neg (by omega), ih hc.2 (by simp; omega)]
    simp

/-- All the loop can answer without a fault. -/
theorem encodeFrom_ok {t : CodeTable} {cap : Nat} {l : List Byte} {k : Nat} {e e' : BitString}
    (he : e.length ≤ cap) (h : encodeFrom t cap k e l = .ok e') :
    AllCoded t l ∧ e' = e ++ encoded t l ∧ e'.length ≤ cap := by
  induction l generalizing k e with
  | nil =>
    simp only [encodeFrom, Except.ok.injEq] at h
    subst h
    simpa using he
  | cons x l ih =>
    rw [encodeFrom_cons] at h
    split at h
    · simp at h
    · split at h
      · simp at h
      · rename_i h1 h2
        obtain ⟨a, b, c⟩ := ih (by simp; omega) h
        exact ⟨by simp [h1, a], by simp [b], c⟩

/-- All the loop can fault with: the first Symbol without a code, or the first that does not fit. -/
theorem encodeFrom_error {t : CodeTable} {cap : Nat} {l : List Byte} {k : Nat} {e : BitString} {f : Raised}
    (he : e.length ≤ cap) (h : encodeFrom t cap k e l = .error f) :
    ∃ pre x post, l = pre ++ x :: post ∧ AllCoded t pre ∧ (e ++ encoded t pre).length ≤ cap ∧
      ((codeOf t x = [] ∧ f = raised .nosym (k + pre.length)) ∨
       (codeOf t x ≠ [] ∧ cap < (e ++ encoded t (pre ++ [x])).length ∧ f = raised .overflow (k + pre.length))) := by
  induction l generalizing k e with
  | nil => simp [encodeFrom] at h
  | cons x l ih =>
    rw [encodeFrom_cons] at h
    split at h
    · rename_i h1
      exact ⟨[], x, l, rfl, by simp, by simpa using he, .inl ⟨h1, by simpa [eq_comm] using h⟩⟩
    · rename_i h1
      split at h
      · rename_i h2
        exact ⟨[], x, l, rfl, by simp, by simpa using he, .inr ⟨h1, by simpa using h2, by simpa [eq_comm] using h⟩⟩
      · rename_i h2
        obtain ⟨pre, y, post, rfl, hp, hl, hr⟩ := ih (by simp; omega) h
        refine ⟨x :: pre, y, post, rfl, by simp [h1, hp], by simpa [Nat.add_assoc] using hl, ?_⟩
        rcases hr with ⟨a, rfl⟩ | ⟨a, b, rfl⟩
        · exact .inl ⟨a, by simp [Nat.add_assoc, Nat.add_comm 1]⟩
        · exact .inr ⟨a, by simpa [Nat.add_assoc] using b, by simp [Nat.add_assoc, Nat.add_comm 1]⟩

end Sys2Proof.Machine
end

