-- ==== Sys2Proof/Laws/Packer.lean ====
section
/-! SUPPORT. What packing and unpacking do to lengths and bits (R112, R212, R232). -/

namespace Sys2Proof.Machine

theorem padCount_bounds (n : Nat) : 1 ≤ padCount n ∧ padCount n ≤ 8 := by
  simp only [padCount]; omega

theorem add_padCount (n : Nat) : n + padCount n = 8 * (n / 8 + 1) := by
  simp only [padCount]; omega

/-- The test of R214 is never true. -/
theorem padCount_aligned (n : Nat) : (8 + n + padCount n) % 8 = 0 := by
  have := add_padCount n; omega

theorem body_bytes (n : Nat) : (n + padCount n) / 8 = n / 8 + 1 := by
  rw [add_padCount]; omega

@[simp] theorem padByte_toNat (n : Nat) : (BitVec.ofNat 8 (padCount n)).toNat = padCount n := by
  have := padCount_bounds n
  simp only [BitVec.toNat_ofNat]; omega

/-- `OLEN = (L div 8) + 2` (R212). -/
@[simp] theorem packBits_length (e : BitString) : (packBits e).length = e.length / 8 + 2 := by
  simp [packBits, body_bytes]

/-- Stream bit `j` of body byte `k` (R112). -/
theorem bitOfByte_packByte (e : BitString) (k j : Nat) (hj : j < 8) :
    bitOfByte (packByte e k) j = e.getD (8 * k + j) false := by
  rw [packByte, bitOfByte_byteOfBits _ _ hj]

theorem packBits_header (e : BitString) : (packBits e).getD 0 0 = BitVec.ofNat 8 (padCount e.length) := by
  simp [packBits]

theorem packBits_body (e : BitString) (k : Nat) (hk : k ≤ e.length / 8) :
    (packBits e).getD (1 + k) 0 = packByte e k := by
  rw [packBits, body_bytes, Nat.add_comm 1]
  simp [List.getD_eq_getElem?_getD, show k < e.length / 8 + 1 by omega]

@[simp] theorem unpackBits_length (a : List Byte) (n : Nat) : (unpackBits a n).length = n := by
  simp [unpackBits]

theorem unpackBits_getElem (a : List Byte) (n i : Nat) (h : i < (unpackBits a n).length) :
    (unpackBits a n)[i] = bitOfByte (a.getD (1 + i / 8) 0) (i % 8) := by
  simp [unpackBits]

/-- The bits of a packed stream, read back one by one (R233). -/
theorem bitOfByte_packBits (e : BitString) (i : Nat) (hi : i / 8 ≤ e.length / 8) :
    bitOfByte ((packBits e).getD (1 + i / 8) 0) (i % 8) = e.getD i false := by
  rw [packBits_body e _ hi, bitOfByte_packByte e _ _ (by omega)]
  congr 1
  omega

/-- Reading back some of the bits of a packed stream gives the stream cut to that length. -/
theorem unpackBits_packBits (e : BitString) (n : Nat) (hn : n ≤ e.length) :
    unpackBits (packBits e) n = e.take n := by
  apply List.ext_getElem
  · simp [hn]
  · intro i h1 h2
    simp only [unpackBits_length] at h1
    rw [unpackBits_getElem, bitOfByte_packBits e i (by omega), List.getElem_take,
      List.getD_eq_getElem _ _ (by omega)]

end Sys2Proof.Machine
end

