-- ==== Sys2Proof/Laws/Exec.lean ====
section
/-! SUPPORT. What every command ends in, a completion or a fault, and the branches of ENCSYM and
of four data commands; and sequences of commands, that of R197 among them. -/

namespace Sys2Proof.Machine

open Sys2Proof.Safety

theorem completed_complete (s : State) (v : Nat) : Completed (s.complete v) :=
  ⟨answer 0 v, by simp [complete_eq_completed, completed], responseCode_answer 0 v (by decide)⟩

theorem not_completed_raise (s : State) (e : Raised) : ¬ Completed (s.raise e) := by
  rintro ⟨r, hr, h0⟩
  simp only [State.raise, Option.some.injEq] at hr
  subst hr
  rw [response_eq_answer, responseCode_answer _ _ e.code.number.isLt] at h0
  exact e.code.number_ne.1 (BitVec.eq_of_toNat_eq h0)

theorem completed_completed (s : State) (v : Nat) : Completed (completed s v) :=
  complete_eq_completed s v ▸ completed_complete s v

theorem not_completed_faulted (s : State) (c i : Nat) (h0 : c ≠ 0) (h16 : c < 16) : ¬ Completed (faulted s c i) := by
  rintro ⟨r, hr, h⟩
  simp only [faulted, Option.some.injEq] at hr
  subst hr
  rw [responseCode_answer c i h16] at h
  exact h0 h

/-- A fault leaves everything but the response and the record (R300). -/
theorem raise_frame (s : State) (e : Raised) :
    s.raise e = { s with rsp := (s.raise e).rsp, err := (s.raise e).err, finfo := (s.raise e).finfo } := rfl

/-- Every command answers: it completes with some data, or raises some fault (R96, R361). -/
theorem exec_complete_or_raise (i : Instr) (s : State) :
    ∃ u : State, (∃ v, exec i s = .next (u.complete v)) ∨ ∃ e, exec i s = .next (u.raise e) := by
  cases i <;>
    simp only [exec, execNop, execReset, execClrerr, execRdstat, execRdfinfo, execClrtree, execLdleaf, execLdint,
      execSetroot, execRdnode, execGentab, execRdlen, execRdcbit, execClrin, execPutb, execRdilen, execClre, execPuteb,
      execEncsym, execEncode, execRdelen, execRdebit, execPack, execRdpad, execUnpack, execDecode, execRdolen,
      execRdob] <;>
    (repeat' split) <;>
    first
    | exact ⟨_, .inl ⟨_, rfl⟩⟩
    | exact ⟨_, .inr ⟨_, rfl⟩⟩

/-- No command stops the machine (R304). -/
theorem exec_next (i : Instr) (s : State) : ∃ t, exec i s = .next t := by
  obtain ⟨u, ⟨v, h⟩ | ⟨e, h⟩⟩ := exec_complete_or_raise i s
  · exact ⟨_, h⟩
  · exact ⟨_, h⟩

/-- The two branches of GENTAB (R170). -/
theorem execGentab_cases (s : State) :
    (∃ e, generate s.tree s.root s.rootv = .error e ∧ execGentab s = .next (s.dropTable.raise e)) ∨
    ∃ w, generate s.tree s.root s.rootv = .ok w ∧ execGentab s = .next ((s.installTable w.table).complete w.count) := by
  unfold execGentab
  split
  · exact .inl ⟨_, ‹_›, rfl⟩
  · exact .inr ⟨_, ‹_›, rfl⟩

/-- The three branches of ENCODE (R194). -/
theorem execEncode_cases (s : State) :
    (s.ctabv = false ∧ execEncode s = .next (State.raise { s with ebuf := [] } (raised .notab 0))) ∨
    (∃ e, s.ctabv = true ∧ encodeFrom s.ctab s.cfg.ebufCap 0 [] s.ibuf = .error e ∧
      execEncode s = .next (State.raise { s with ebuf := [] } e)) ∨
    ∃ e, s.ctabv = true ∧ encodeFrom s.ctab s.cfg.ebufCap 0 [] s.ibuf = .ok e ∧
      execEncode s = .next (State.complete { s with ebuf := e } e.length) := by
  unfold execEncode
  cases hv : s.ctabv with
  | false => exact .inl ⟨rfl, rfl⟩
  | true =>
    cases he : encodeFrom s.ctab s.cfg.ebufCap 0 [] s.ibuf with
    | error e => exact .inr (.inl ⟨e, rfl, rfl, by simp⟩)
    | ok e => exact .inr (.inr ⟨e, rfl, rfl, by simp⟩)

/-- PACK has one branch (R212, R214). -/
theorem execPack_eq (s : State) :
    execPack s = .next (State.complete
      { s with obuf := packBits s.ebuf, pad := BitVec.ofNat 8 (padCount s.elen), ebuf := [] }
      (packBits s.ebuf).length) := by
  simp [execPack, padCount_aligned]

/-- The five branches of DECODE (R240). -/
theorem execDecode_cases (s : State) :
    (s.ctabv = false ∧ execDecode s = .next (State.raise { s with obuf := [] } (raised .notab 0))) ∨
    (s.ctabv = true ∧ s.ebuf = [] ∧ execDecode s = .next (State.complete { s with obuf := [] } 0)) ∨
    (s.ctabv = true ∧ s.ebuf ≠ [] ∧ s.rootv = false ∧
      execDecode s = .next (State.raise { s with obuf := [] } (raised .notree s.elen))) ∨
    (∃ e, s.ctabv = true ∧ s.ebuf ≠ [] ∧ s.rootv = true ∧
      decodeBits s.tree s.root s.cfg.obufCap s.ebuf = .error e ∧
      execDecode s = .next (State.raise { s with obuf := [] } e)) ∨
    ∃ out, s.ctabv = true ∧ s.ebuf ≠ [] ∧ s.rootv = true ∧
      decodeBits s.tree s.root s.cfg.obufCap s.ebuf = .ok out ∧
      execDecode s = .next (State.complete { s with obuf := out } out.length) := by
  unfold execDecode
  by_cases hv : s.ctabv = false
  · simp [hv]
  · by_cases he : s.ebuf = []
    · simp [hv, he, State.elen]
    · by_cases hr : s.rootv = false
      · simp [hv, he, hr, State.elen]
      · cases hd : decodeBits s.tree s.root s.cfg.obufCap s.ebuf <;> simp [hv, he, hr, State.elen]

/-- The four branches of ENCSYM (R193). -/
theorem execEncsym_cases (sym : Byte) (s : State) :
    (s.ctabv = false ∧ execEncsym sym s = .next (s.raise (raised .notab 0))) ∨
    (s.ctabv = true ∧ codeOf s.ctab sym = [] ∧ execEncsym sym s = .next (s.raise (raised .nosym sym.toNat))) ∨
    (s.ctabv = true ∧ codeOf s.ctab sym ≠ [] ∧ s.cfg.ebufCap < s.elen + (codeOf s.ctab sym).length ∧
      execEncsym sym s = .next (s.raise (raised .overflow s.elen))) ∨
    (s.ctabv = true ∧ codeOf s.ctab sym ≠ [] ∧ s.elen + (codeOf s.ctab sym).length ≤ s.cfg.ebufCap ∧
      execEncsym sym s = .next (State.complete { s with ebuf := s.ebuf ++ codeOf s.ctab sym }
        (s.elen + (codeOf s.ctab sym).length))) := by
  unfold execEncsym
  by_cases hv : s.ctabv = false
  · simp [hv]
  · by_cases hc : codeOf s.ctab sym = []
    · simp [hv, hc]
    · by_cases hf : s.cfg.ebufCap < s.elen + (codeOf s.ctab sym).length
      · simp [hv, hc, hf]
      · simp [hv, hc, hf, Nat.le_of_not_lt hf]

@[simp] theorem runAll_nil (s : State) : runAll [] s = some s := rfl

/-- The first command of a sequence. -/
theorem runAll_cons {i : Instr} {s t : State} (h : exec i s = .next t) (l : List Instr) :
    runAll (i :: l) s = runAll l t := by
  simp [runAll, h]

/-- A sequence runs its two parts one after the other. -/
theorem runAll_append {l : List Instr} {s t : State} (h : runAll l s = some t) (m : List Instr) :
    runAll (l ++ m) s = runAll m t := by
  induction l generalizing s with
  | nil => simp_all
  | cons i l ih =>
    obtain ⟨u, hu⟩ := exec_next i s
    rw [runAll_cons hu] at h
    rw [List.cons_append, runAll_cons hu, ih h]

/-- A run of ENCSYM over Symbols that have codes and fit, from a state whose answer is the stream's length: the codes
are appended, and that is still the answer (R193). -/
theorem runAll_encsym {l : List Byte} {s : State} (hv : s.ctabv = true) (hc : AllCoded s.ctab l)
    (hf : s.elen + (encoded s.ctab l).length ≤ s.cfg.ebufCap) :
    runAll (l.map .encsym) (s.complete s.elen) =
      some (State.complete { s with ebuf := s.ebuf ++ encoded s.ctab l } (s.elen + (encoded s.ctab l).length)) := by
  induction l generalizing s with
  | nil => simp
  | cons x l ih =>
    rw [allCoded_cons] at hc
    rw [encoded_cons, List.length_append] at hf
    have hx : exec (.encsym x) (s.complete s.elen) =
        .next (State.complete { s with ebuf := s.ebuf ++ codeOf s.ctab x } (s.ebuf ++ codeOf s.ctab x).length) := by
      have hn : ¬ s.cfg.ebufCap < s.elen + (codeOf s.ctab x).length := by omega
      rcases execEncsym_cases x (s.complete s.elen) with ⟨h, -⟩ | ⟨-, h, -⟩ | ⟨-, -, h, -⟩ | ⟨-, -, -, h⟩
      · simp_all
      · exact absurd h hc.1
      · exact absurd h hn
      · rw [List.length_append]
        exact h
    rw [List.map_cons, runAll_cons hx, ih (s := { s with ebuf := s.ebuf ++ codeOf s.ctab x }) hv hc.2
      (by simp only [State.elen, List.length_append] at hf ⊢; omega)]
    simp [State.elen, Nat.add_assoc]

/-- CLRE and a run of ENCSYM over Symbols that have codes and fit: the stream is their codes (R191, R193). -/
theorem runAll_clre_encsym {l : List Byte} {s : State} (hv : s.ctabv = true) (hc : AllCoded s.ctab l)
    (hf : (encoded s.ctab l).length ≤ s.cfg.ebufCap) :
    runAll (.clre :: l.map .encsym) s =
      some (State.complete { s with ebuf := encoded s.ctab l } (encoded s.ctab l).length) := by
  have h := runAll_encsym (s := { s with ebuf := [] }) hv hc (by simpa [State.elen] using hf)
  rw [runAll_cons (t := State.complete { s with ebuf := [] } 0) rfl]
  simpa [State.elen] using h

end Sys2Proof.Machine
end

