-- ==== Sys2Proof/Laws/Invariant.lean ====
section
/-! SUPPORT. When a concrete state satisfies the invariant `Inv` (R30): its table is the one GENTAB computes from its
codebook, or is not valid. -/

namespace Sys2Proof.Machine

open Sys2Proof.Safety

/-- A state whose lengths, `PAD` and record are in range and whose table is not valid satisfies R30. -/
theorem inv_of_no_table {s : State} (hi : s.ilen ≤ s.cfg.ibufCap) (he : s.elen ≤ s.cfg.ebufCap)
    (ho : s.olen ≤ s.cfg.obufCap) (hp : s.pad.toNat ≤ 8) (hr : s.err = 0 → s.finfo = 0) (hv : s.ctabv = false) :
    Inv s :=
  ⟨hi, he, ho, by simp [hv], by simp [hv], by simp [hv], hp, hr⟩

/-- A state whose lengths, `PAD` and record are in range and whose table is what GENTAB computes satisfies R30. -/
theorem inv_of_generate {s : State} {n : Nat} (hi : s.ilen ≤ s.cfg.ibufCap) (he : s.elen ≤ s.cfg.ebufCap)
    (ho : s.olen ≤ s.cfg.obufCap) (hp : s.pad.toNat ≤ 8) (hr : s.err = 0 → s.finfo = 0)
    (hg : generate s.tree s.root s.rootv = .ok ⟨s.ctab, n⟩) : Inv s := by
  cases hv : s.rootv with
  | false =>
    have ht : s.ctab = noCodes := by
      rcases generate_ok hg with ⟨-, h⟩ | ⟨h, -⟩
      · exact congrArg Walk.table h
      · simp [hv] at h
    refine ⟨hi, he, ho, fun _ => ⟨fun _ sym => by simp [ht], fun h => by simp [hv] at h⟩, fun _ a b _ ha => ?_,
      fun _ sym => by simp [ht], hp, hr⟩
    simp [ht] at ha
  | true =>
    rw [hv] at hg
    obtain ⟨h, hw, ht, -⟩ := generate_table hg
    exact ⟨hi, he, ho, fun _ => ⟨fun h => by simp [hv] at h, fun _ => ⟨h, hw, ht⟩⟩,
      fun _ => prefixFree_of_isTableOf hw.2 ht, fun _ => codeOf_length_of_isTableOf hw.2 ht, hp, hr⟩

end Sys2Proof.Machine
end

