-- ==== Sys2Proof/Laws/PerInstr.lean ====
section
/-! SUPPORT. Statements made per instruction. Family `Encoding`: the operands of a well-formed command fit below the
opcode field (R90, R91). -/

/-- The opcode has 5 bits' worth of value below 28 and the operands fit in bits 26:0 (R90, R94). -/
def Sys2Proof.Laws.Encoding.Statement (i : Sys2Proof.Instr) : Prop :=
  i.wellFormed = true → Sys2Proof.opcode i < 28 ∧ Sys2Proof.operandBits i < 2 ^ 27

namespace Sys2Proof.Laws.Encoding

theorem byte_fits (b : Byte) : b.toNat < 2 ^ 27 := by have := b.isLt; omega

theorem nop : Statement .nop := fun _ => by decide

theorem reset : Statement .reset := fun _ => by decide

theorem clrerr : Statement .clrerr := fun _ => by decide

theorem rdstat : Statement .rdstat := fun _ => by decide

theorem rdfinfo : Statement .rdfinfo := fun _ => by decide

theorem clrtree : Statement .clrtree := fun _ => by decide

theorem ldleaf (idx : Nat) (sym : Byte) : Statement (.ldleaf idx sym) := fun h => by
  have := sym.isLt; simp only [Instr.wellFormed, idxFits, decide_eq_true_eq] at h
  simp only [opcode, operandBits]; omega

theorem ldint (idx : Nat) (left : Nat) (right : Nat) : Statement (.ldint idx left right) := fun h => by
  simp only [Instr.wellFormed, idxFits, Bool.and_eq_true, decide_eq_true_eq] at h
  simp only [opcode, operandBits]; omega

theorem setroot (idx : Nat) : Statement (.setroot idx) := fun h => by
  simp only [Instr.wellFormed, idxFits, decide_eq_true_eq] at h
  simp only [opcode, operandBits]; omega

theorem rdnode (idx : Nat) : Statement (.rdnode idx) := fun h => by
  simp only [Instr.wellFormed, idxFits, decide_eq_true_eq] at h
  simp only [opcode, operandBits]; omega

theorem gentab : Statement .gentab := fun _ => by decide

theorem rdlen (sym : Byte) : Statement (.rdlen sym) := fun _ => ⟨by simp [opcode], byte_fits sym⟩

theorem rdcbit (pos : Nat) (sym : Byte) : Statement (.rdcbit pos sym) := fun h => by
  have := sym.isLt; simp only [Instr.wellFormed, posFits, decide_eq_true_eq] at h
  simp only [opcode, operandBits]; omega

theorem clrin : Statement .clrin := fun _ => by decide

theorem putb (byte : Byte) : Statement (.putb byte) := fun _ => ⟨by simp [opcode], byte_fits byte⟩

theorem rdilen : Statement .rdilen := fun _ => by decide

theorem clre : Statement .clre := fun _ => by decide

theorem puteb (bit : Bit) : Statement (.puteb bit) := fun _ => ⟨by simp [opcode], by cases bit <;> decide⟩

theorem encsym (sym : Byte) : Statement (.encsym sym) := fun _ => ⟨by simp [opcode], byte_fits sym⟩

theorem encode : Statement .encode := fun _ => by decide

theorem rdelen : Statement .rdelen := fun _ => by decide

theorem rdebit (index : Nat) : Statement (.rdebit index) := fun h => by
  simp only [Instr.wellFormed, indexFits, decide_eq_true_eq] at h
  simp only [opcode, operandBits]; omega

theorem pack : Statement .pack := fun _ => by decide

theorem rdpad : Statement .rdpad := fun _ => by decide

theorem unpack : Statement .unpack := fun _ => by decide

theorem decode : Statement .decode := fun _ => by decide

theorem rdolen : Statement .rdolen := fun _ => by decide

theorem rdob (index : Nat) : Statement (.rdob index) := fun h => by
  simp only [Instr.wellFormed, indexFits, decide_eq_true_eq] at h
  simp only [opcode, operandBits]; omega

end Sys2Proof.Laws.Encoding
end

