-- ==== Sys2Proof/Laws/Unpacker.lean ====
section
/-! SUPPORT. What the walks of DECODE do with a code, with the inside of a code, and with a single-symbol codebook
(R240). -/

namespace Sys2Proof.Machine

open Sys2Proof.Safety

theorem decodeWalk_nil (t : Tree) (cap : Nat) (rl rr : NodeIdx) (i : Nat) (l r : NodeIdx) (clen : Nat)
    (out : List Byte) :
    decodeWalk t cap rl rr i l r clen out [] =
      if clen ≠ 0 then .error (raised .leftover clen) else .ok out := rfl

/-- One bit of the walk onto a loaded entry. -/
theorem decodeWalk_cons {t : Tree} {l r : NodeIdx} {b : Bit} {x : Node} (hx : nodeAt t (child l r b) = some x)
    (cap : Nat) (rl rr : NodeIdx) (i clen : Nat) (out : List Byte) (rest : BitString) :
    decodeWalk t cap rl rr i l r clen out (b :: rest) =
      match x with
      | .leaf sym =>
        if out.length = cap then .error (raised .overflow i)
        else decodeWalk t cap rl rr (i + 1) rl rr 0 (out ++ [sym]) rest
      | .internal l' r' => decodeWalk t cap rl rr (i + 1) l' r' (clen + 1) out rest := by
  rw [decodeWalk, walkNode_of_loaded hx]
  cases x <;> rfl

/-- The walk along one whole code: its Symbol is written, or finds the output full at the code's last bit. -/
theorem decodeWalk_code {t : Tree} {l r : NodeIdx} {a b : HTree} (ha : Unfolds t l a) (hb : Unfolds t r b)
    {c : Byte × BitString} (hc : c ∈ (HTree.node a b).paths) (cap : Nat) (rl rr : NodeIdx) (i clen : Nat)
    (out : List Byte) (rest : BitString) :
    decodeWalk t cap rl rr i l r clen out (c.2 ++ rest) =
      if out.length = cap then .error (raised .overflow (i + c.2.length - 1))
      else decodeWalk t cap rl rr (i + c.2.length) rl rr 0 (out ++ [c.1]) rest := by
  obtain ⟨sym, p⟩ := c
  induction p generalizing l r a b i clen with
  | nil => simp [HTree.paths] at hc
  | cons bit p ih =>
    have key : ∀ (n : NodeIdx) (h : HTree), child l r bit = n → Unfolds t n h → (sym, p) ∈ h.paths →
        decodeWalk t cap rl rr i l r clen out (bit :: p ++ rest) =
          if out.length = cap then .error (raised .overflow (i + (bit :: p).length - 1))
          else decodeWalk t cap rl rr (i + (bit :: p).length) rl rr 0 (out ++ [sym]) rest := by
      intro n h hcn hu hm
      cases hu with
      | leaf hx =>
        simp only [HTree.paths, List.mem_singleton, Prod.mk.injEq] at hm
        obtain ⟨rfl, rfl⟩ := hm
        rw [List.cons_append, decodeWalk_cons (hcn ▸ hx)]
        simp
      | node hx hl hr =>
        rw [List.cons_append, decodeWalk_cons (hcn ▸ hx)]
        simp only
        rw [ih hl hr (i + 1) (clen + 1) hm]
        simp only [List.length_cons]
        rw [show i + 1 + p.length - 1 = i + (p.length + 1) - 1 by omega,
          show i + 1 + p.length = i + (p.length + 1) by omega]
    simp only [HTree.paths, List.mem_append, List.mem_map, Prod.mk.injEq, List.cons.injEq] at hc
    rcases hc with ⟨d, hd, rfl, rfl, rfl⟩ | ⟨d, hd, rfl, rfl, rfl⟩
    · exact key l a rfl ha hd
    · exact key r b rfl hb hd

/-- The walk along the inside of a code: the bits end there and are left over. -/
theorem decodeWalk_inside {t : Tree} {l r : NodeIdx} {a b : HTree} (ha : Unfolds t l a) (hb : Unfolds t r b)
    {c : Byte × BitString} (hc : c ∈ (HTree.node a b).paths) {p : BitString} (hp : p <+: c.2) (hne : p ≠ c.2)
    (cap : Nat) (rl rr : NodeIdx) (i clen : Nat) (hz : clen + p.length ≠ 0) (out : List Byte) :
    decodeWalk t cap rl rr i l r clen out p = .error (raised .leftover (clen + p.length)) := by
  obtain ⟨sym, q⟩ := c
  induction p generalizing l r a b i clen q with
  | nil => simpa [decodeWalk_nil] using hz
  | cons bit p ih =>
    cases q with
    | nil => simp at hp
    | cons bit' q =>
      simp only [List.cons_prefix_cons] at hp
      obtain ⟨rfl, hp⟩ := hp
      have hne' : p ≠ q := fun h => hne (by rw [h])
      have key : ∀ (n : NodeIdx) (h : HTree), child l r bit = n → Unfolds t n h → (sym, q) ∈ h.paths →
          decodeWalk t cap rl rr i l r clen out (bit :: p) = .error (raised .leftover (clen + (bit :: p).length)) := by
        intro n h hcn hu hm
        cases hu with
        | leaf hx => simp_all [HTree.paths]
        | node hx hl hr =>
          rw [decodeWalk_cons (hcn ▸ hx)]
          simp only
          rw [ih hl hr (i + 1) (clen + 1) (by omega) q hm hp hne']
          simp only [List.length_cons]
          rw [show clen + 1 + p.length = clen + (p.length + 1) by omega]
      simp only [HTree.paths, List.mem_append, List.mem_map, Prod.mk.injEq, List.cons.injEq] at hc
      rcases hc with ⟨d, hd, rfl, rfl, rfl⟩ | ⟨d, hd, rfl, rfl, rfl⟩
      · exact key l a rfl ha hd
      · exact key r b rfl hb hd

/-- Every bit-string begins with a code or is the inside of one (R116). -/
theorem paths_cover (h : HTree) (e : BitString) :
    (∃ c ∈ h.paths, c.2 <+: e) ∨ (∃ c ∈ h.paths, e <+: c.2 ∧ e ≠ c.2) := by
  induction h generalizing e with
  | leaf sym => exact .inl ⟨(sym, []), by simp [HTree.paths], List.nil_prefix⟩
  | node a b iha ihb =>
    cases e with
    | nil =>
      rcases iha [] with ⟨c, hc, -⟩ | ⟨c, hc, -⟩ <;>
        exact .inr ⟨(c.1, false :: c.2), by simp [HTree.paths, hc], List.nil_prefix, by simp⟩
    | cons bit e =>
      cases bit with
      | false =>
        rcases iha e with ⟨c, hc, hp⟩ | ⟨c, hc, hp, hn⟩
        · exact .inl ⟨(c.1, false :: c.2), by simp [HTree.paths, hc], by simpa using hp⟩
        · exact .inr ⟨(c.1, false :: c.2), by simp [HTree.paths, hc], by simpa using hp, by simpa using hn⟩
      | true =>
        rcases ihb e with ⟨c, hc, hp⟩ | ⟨c, hc, hp, hn⟩
        · exact .inl ⟨(c.1, true :: c.2), by simp [HTree.paths, hc], by simpa using hp⟩
        · exact .inr ⟨(c.1, true :: c.2), by simp [HTree.paths, hc], by simpa using hp, by simpa using hn⟩

/-- A run of zero bits under a single-symbol codebook (R240). -/
theorem decodeSingle_zeros (cap : Nat) (sym : Byte) (m i : Nat) (out : List Byte) (rest : BitString)
    (h : out.length + m ≤ cap) :
    decodeSingle cap sym i out (List.replicate m false ++ rest) =
      decodeSingle cap sym (i + m) (out ++ List.replicate m sym) rest := by
  induction m generalizing i out with
  | zero => simp
  | succ m ih =>
    simp only [List.replicate_succ, List.cons_append]
    rw [decodeSingle]
    simp only [Bool.false_eq_true, if_false]
    rw [if_neg (by omega), ih (i + 1) (out ++ [sym]) (by simp; omega)]
    rw [show i + 1 + m = i + (m + 1) by omega, List.append_assoc, List.singleton_append]

/-- A 1 bit under a single-symbol codebook (R243). -/
theorem decodeSingle_one (cap : Nat) (sym : Byte) (i : Nat) (out : List Byte) (rest : BitString) :
    decodeSingle cap sym i out (true :: rest) = .error (raised .nocode i) := by
  simp [decodeSingle]

/-- A 0 bit under a single-symbol codebook with the output full (R240). -/
theorem decodeSingle_full (cap : Nat) (sym : Byte) (i : Nat) (out : List Byte) (rest : BitString)
    (h : out.length = cap) : decodeSingle cap sym i out (false :: rest) = .error (raised .overflow i) := by
  simp [decodeSingle, h]

/-- A single-symbol codebook: the codes of the only Symbol. -/
theorem encoded_of_single {tab : CodeTable} {sym : Byte} (ht : IsTableOf tab (HTree.leaf sym).codes) {l : List Byte}
    (hc : AllCoded tab l) : l = List.replicate l.length sym ∧ encoded tab l = List.replicate l.length false := by
  induction l with
  | nil => simp
  | cons x l ih =>
    rw [allCoded_cons] at hc
    have hx : x = sym := by
      by_contra hne
      exact hc.1 (ht.2 x (by simpa [HTree.codes] using hne))
    have hf : codeOf tab sym = [false] := ht.1 (sym, [false]) (by simp [HTree.codes])
    obtain ⟨h1, h2⟩ := ih hc.2
    subst hx
    refine ⟨?_, ?_⟩
    · rw [List.length_cons, List.replicate_succ, ← h1]
    · rw [encoded_cons, hf, h2, List.length_cons, List.replicate_succ, List.singleton_append]

/-- The walk along the concatenated codes of a Symbol sequence that fits the output. -/
theorem decodeWalk_encoded {t : Tree} {l r : NodeIdx} {a b : HTree} (ha : Unfolds t l a) (hb : Unfolds t r b)
    {tab : CodeTable} (ht : IsTableOf tab (HTree.node a b).codes) (cap : Nat) {syms : List Byte}
    (hc : AllCoded tab syms) (i : Nat) (out : List Byte) (hcap : out.length + syms.length ≤ cap) (rest : BitString) :
    decodeWalk t cap l r i l r 0 out (encoded tab syms ++ rest) =
      decodeWalk t cap l r (i + (encoded tab syms).length) l r 0 (out ++ syms) rest := by
  induction syms generalizing i out with
  | nil => simp
  | cons x syms ih =>
    rw [allCoded_cons] at hc
    simp only [List.length_cons] at hcap
    rw [encoded_cons, List.append_assoc, decodeWalk_code ha hb (mem_codes_of_coded ht hc.1), if_neg (by omega),
      ih hc.2 _ _ (by simp; omega)]
    simp [Nat.add_assoc]

end Sys2Proof.Machine
end

