-- ==== Sys2Proof/Tests/Slice0.lean ====
section
/-! SUPPORT. The model's own tests: ill-formed terms that `wellFormed` refuses; for every command its word written out
from R91 and R94; one or two single steps per command with the responses the spec's examples give; and, for every
obligation with hypotheses, concrete states and operands that meet them. -/

namespace Sys2Proof.Tests

open Sys2Proof.Machine Sys2Proof.Safety

/-! ## WellFormed: for each check a term just past its range -/

theorem test_wellFormed_idx_of_ldleaf : (Instr.ldleaf 512 0).wellFormed = false := by decide

theorem test_wellFormed_idx_of_ldint : (Instr.ldint 512 0 0).wellFormed = false := by decide

theorem test_wellFormed_left_of_ldint : (Instr.ldint 0 512 0).wellFormed = false := by decide

theorem test_wellFormed_right_of_ldint : (Instr.ldint 0 0 512).wellFormed = false := by decide

theorem test_wellFormed_idx_of_setroot : (Instr.setroot 512).wellFormed = false := by decide

theorem test_wellFormed_idx_of_rdnode : (Instr.rdnode 512).wellFormed = false := by decide

theorem test_wellFormed_pos_of_rdcbit : (Instr.rdcbit 256 0).wellFormed = false := by decide

theorem test_wellFormed_index_of_rdebit : (Instr.rdebit 1048576).wellFormed = false := by decide

theorem test_wellFormed_index_of_rdob : (Instr.rdob 1048576).wellFormed = false := by decide

/-! ## Decode: opcode, reserved zeros and operands, field by field (R91, R94) -/

theorem test_decode_nop : decode 0b00000_000000000000000000000000000 = .ok .nop := by decide

theorem test_decode_reset : decode 0b00001_000000000000000000000000000 = .ok .reset := by decide

theorem test_decode_clrerr : decode 0b00010_000000000000000000000000000 = .ok .clrerr := by decide

theorem test_decode_rdstat : decode 0b00011_000000000000000000000000000 = .ok .rdstat := by decide

theorem test_decode_rdfinfo : decode 0b00100_000000000000000000000000000 = .ok .rdfinfo := by decide

theorem test_decode_clrtree : decode 0b00101_000000000000000000000000000 = .ok .clrtree := by decide

theorem test_decode_ldleaf : decode 0b00110_0000000000_000000010_01101100 = .ok (.ldleaf 2 108) := by decide

theorem test_decode_ldint : decode 0b00111_000001110_000001100_000001101 = .ok (.ldint 14 12 13) := by decide

theorem test_decode_setroot : decode 0b01000_000000000000000000_111111110 = .ok (.setroot 510) := by decide

theorem test_decode_rdnode : decode 0b01001_000000000000000000_111111110 = .ok (.rdnode 510) := by decide

theorem test_decode_gentab : decode 0b01010_000000000000000000000000000 = .ok .gentab := by decide

theorem test_decode_rdlen : decode 0b01011_0000000000000000000_01101000 = .ok (.rdlen 0x68) := by decide

theorem test_decode_rdcbit : decode 0b01100_00000000000_00000011_01101000 = .ok (.rdcbit 3 0x68) := by decide

theorem test_decode_clrin : decode 0b01101_000000000000000000000000000 = .ok .clrin := by decide

theorem test_decode_putb : decode 0b01110_0000000000000000000_01101000 = .ok (.putb 0x68) := by decide

theorem test_decode_rdilen : decode 0b01111_000000000000000000000000000 = .ok .rdilen := by decide

theorem test_decode_clre : decode 0b10000_000000000000000000000000000 = .ok .clre := by decide

theorem test_decode_puteb : decode 0b10001_00000000000000000000000000_1 = .ok (.puteb true) := by decide

theorem test_decode_encsym : decode 0b10010_0000000000000000000_01101000 = .ok (.encsym 0x68) := by decide

theorem test_decode_encode : decode 0b10011_000000000000000000000000000 = .ok .encode := by decide

theorem test_decode_rdelen : decode 0b10100_000000000000000000000000000 = .ok .rdelen := by decide

theorem test_decode_rdebit : decode 0b10101_0000000_01111111111111110110 = .ok (.rdebit 524278) := by decide

theorem test_decode_pack : decode 0b10110_000000000000000000000000000 = .ok .pack := by decide

theorem test_decode_rdpad : decode 0b10111_000000000000000000000000000 = .ok .rdpad := by decide

theorem test_decode_unpack : decode 0b11000_000000000000000000000000000 = .ok .unpack := by decide

theorem test_decode_decode : decode 0b11001_000000000000000000000000000 = .ok .decode := by decide

theorem test_decode_rdolen : decode 0b11010_000000000000000000000000000 = .ok .rdolen := by decide

theorem test_decode_rdob : decode 0b11011_0000000_01111111111111110110 = .ok (.rdob 524278) := by decide

/-- V-E2: words that are no commands. -/
theorem test_decode_rejects :
    decode 0x00000001 = .error .reservedBits ∧ decode 0x08000100 = .error .reservedBits ∧
    decode 0xE0000000 = .error .reservedOpcode ∧ decode 0xFFFFFFFF = .error .reservedOpcode ∧
    decode 0x88000002 = .error .reservedBits ∧ decode 0x40000200 = .error .reservedBits ∧
    decode 0x30020000 = .error .reservedBits ∧ decode 0x61000000 = .error .reservedBits ∧
    decode 0xD8100000 = .error .reservedBits ∧ decode 0xA8100000 = .error .reservedBits ∧
    decode 0x50000001 = .error .reservedBits := by decide

/-- The operand fields the decoder may not confuse: `LDLEAF 510, 255` and `LDINT 510, 510, 510` (V-E1). -/
theorem test_decodeTableWord :
    decodeTableWord 32 0x3001FEFF = some (.ldleaf 510 255) ∧
    decodeTableWord 32 0x3FFBFDFE = some (.ldint 510 510 510) ∧ decodeTableWord 32 0xE0000000 = none := by decide

/-! ## Small states -/

/-- The state after one step. -/
def stepped (s : State) : State :=
  match step s with
  | .next t => t
  | _ => s

theorem step_stepped (s : State) : step s = .next (stepped s) := by
  have h : ∃ t, step s = .next t := by
    unfold step
    split
    · exact ⟨_, rfl⟩
    · exact ⟨_, rfl⟩
    · split
      · exact exec_next _ _
      · exact ⟨_, rfl⟩
  obtain ⟨t, ht⟩ := h
  simp [stepped, ht]

/-- The state after one command word, whatever else the host has waiting. -/
def after (w : Nat) (s : State) : State := stepped (s.withFetchWord 32 w)

/-- The state after one command. -/
def run (i : Instr) (s : State) : State :=
  match exec i s with
  | .next t => t
  | _ => s

/-- S1: the empty codebook after GENTAB. -/
def bare : State := { State.reset with ctabv := true }

/-- S2: the single-leaf tree of `'a'` after GENTAB. -/
def single : State :=
  { State.reset with
    tree := setNode noNodes 0 (.leaf 0x61)
    rootv := true
    ctab := setCode noCodes 0x61 [false]
    ctabv := true }

/-- V-T3: the tree 0 = internal(1, 2), 1 = leaf `'x'`, 2 = leaf `'y'`. -/
def pairTree : Tree := setNode (setNode (setNode noNodes 0 (.internal 1 2)) 1 (.leaf 0x78)) 2 (.leaf 0x79)

/-- V-T3 after its last GENTAB: `'x'` = "0", `'y'` = "1". -/
def pair : State :=
  { State.reset with
    tree := pairTree
    rootv := true
    ctab := setCode (setCode noCodes 0x78 [false]) 0x79 [true]
    ctabv := true }

/-- P2: codes a `0`, c `100`, d `101`, b `110`, r `111`. -/
def abraTree : Tree :=
  setNode (setNode (setNode (setNode (setNode (setNode (setNode (setNode (setNode noNodes
    0 (.leaf 0x61)) 1 (.leaf 0x62)) 2 (.leaf 0x72)) 3 (.leaf 0x63)) 4 (.leaf 0x64))
    5 (.internal 3 4)) 6 (.internal 1 2)) 7 (.internal 5 6)) 8 (.internal 0 7)

/-- P2 after its GENTAB. -/
def abra : State :=
  { State.reset with
    tree := abraTree
    root := 8
    rootv := true
    ctab := setCode (setCode (setCode (setCode (setCode noCodes 0x61 [false]) 0x63 [true, false, false])
      0x64 [true, false, true]) 0x62 [true, true, false]) 0x72 [true, true, true]
    ctabv := true }

/-- The least capacities of R8: 2 bytes in, 2 bytes out, so 7 bits of stream. -/
def tinyConfig : Config := ⟨2, 2, by decide, by decide, by decide, by decide⟩

/-- S2 with the least capacities. -/
def tiny : State := { single with cfg := tinyConfig }

/-! ## Single steps, with the responses of the spec's examples and vectors -/

/-- R260. -/
theorem test_nop : (after 0x00000000 pair).rsp = some 0x00000000 ∧ (after 0x00000000 pair).ctabv = true := by decide

/-- R261. -/
theorem test_reset : (after 0x08000000 { pair with pad := 3, err := 2 }).rsp = some 0x00000000 ∧
    (after 0x08000000 { pair with pad := 3, err := 2 }).statusWord = 0 ∧ (after 0x08000000 { pair with pad := 3 }).pad = 0 := by decide

/-- R262. -/
theorem test_clrerr : (after 0x10000000 { State.reset with err := 10, finfo := 9 }).err = 0 ∧
    (after 0x10000000 { State.reset with err := 10, finfo := 9 }).finfo = 0 := by decide

/-- R263's example. -/
theorem test_rdstat : (after 0x18000000 pair).rsp = some 0x00000030 := by decide

/-- V-T1, row 11. -/
theorem test_rdstat_with_fault : (after 0x18000000 { single with err := 2, finfo := 1 }).rsp = some 0x00000032 := by decide

/-- R264's example. -/
theorem test_rdfinfo : (after 0x20000000 { State.reset with err := 10, finfo := 9 }).rsp = some 0x00000009 := by decide

/-- R165: the entries of `CTAB` stay. -/
theorem test_clrtree : (after 0x28000000 single).rsp = some 0x00000000 ∧ nodeAt (after 0x28000000 single).tree 0 = none ∧
    (after 0x28000000 single).statusWord = 0 ∧ codeOf (after 0x28000000 single).ctab 0x61 = [false] := by decide

/-- R166's example. -/
theorem test_ldleaf : (after 0x3000026C single).rsp = some 0x00000000 ∧ nodeAt (after 0x3000026C single).tree 2 = some (.leaf 0x6C) ∧
    (after 0x3000026C single).ctabv = false := by decide

/-- R166, R92: index 511 names no node, and nothing is written. -/
theorem test_ldleaf_511 : (after 0x3001FF00 single).rsp = some 0x200001FF ∧ (after 0x3001FF00 single).ctabv = true := by decide

/-- R167's example. -/
theorem test_ldint : (after 0x3838180D single).rsp = some 0x00000000 ∧
    nodeAt (after 0x3838180D single).tree 14 = some (.internal 12 13) ∧ (after 0x3838180D single).ctabv = false := by decide +kernel

/-- R167: the child is tested, and nothing is written. -/
theorem test_ldint_right_511 : (after 0x380001FF single).rsp = some 0x200001FF ∧ nodeAt (after 0x380001FF single).tree 0 = some (.leaf 0x61) ∧
    (after 0x380001FF single).ctabv = true := by decide

/-- R169's example. -/
theorem test_setroot : (after 0x4000000E single).rsp = some 0x00000000 ∧ (after 0x4000000E single).statusWord = 16 ∧
    (after 0x4000000E single).root = 14 := by decide

/-- V-T1, row 9. -/
theorem test_rdnode_leaf : (after 0x48000000 single).rsp = some 0x000C0061 := by decide

/-- R167's example: the node word of LDINT 14, 12, 13. -/
theorem test_rdnode_internal : (after 0x4800000E (after 0x3838180D State.reset)).rsp = some 0x0008180D := by decide

/-- P2: five codes, `c` = 100 among them. -/
theorem test_gentab : (after 0x50000000 { abra with ctab := noCodes, ctabv := false }).rsp = some 0x00000005 ∧
    codeOf (after 0x50000000 { abra with ctab := noCodes, ctabv := false }).ctab 0x63 = [true, false, false] := by decide +kernel

/-- V-T4: `E_DEPTH(0)`, and the table is emptied. -/
theorem test_gentab_self_loop : (after 0x50000000 { single with tree := setNode noNodes 0 (.internal 0 0) }).rsp = some 0x60000000 ∧
    codeOf (after 0x50000000 { single with tree := setNode noNodes 0 (.internal 0 0) }).ctab 0x61 = [] := by decide +kernel

/-- V-T1, rows 4 and 6. -/
theorem test_rdlen : (after 0x58000061 single).rsp = some 0x00000001 ∧ (after 0x58000062 single).rsp = some 0x00000000 := by decide

/-- V-T1, rows 5 and 7. -/
theorem test_rdcbit : (after 0x60000061 single).rsp = some 0x00000000 ∧ (after 0x60000161 single).rsp = some 0x20000001 := by decide

/-- R266. -/
theorem test_clrin : (after 0x68000000 { State.reset with ibuf := [4, 0] }).ilen = 0 := by decide

/-- R267's example. -/
theorem test_putb : (after 0x70000061 State.reset).rsp = some 0x00000001 ∧ (after 0x70000061 State.reset).ibuf = [0x61] := by decide

/-- R267 at `IBUF_CAP` = 2. -/
theorem test_putb_full : (after 0x70000061 { tiny with ibuf := [1, 2] }).rsp = some 0x30000002 ∧
    (after 0x70000061 { tiny with ibuf := [1, 2] }).ibuf = [1, 2] := by decide

/-- R268's example. -/
theorem test_rdilen : (after 0x78000000 { State.reset with ibuf := [0x61] }).rsp = some 0x00000001 := by decide

/-- R191. -/
theorem test_clre : (after 0x80000000 { State.reset with ebuf := [true] }).elen = 0 := by decide

/-- R192's example. -/
theorem test_puteb : (after 0x88000001 State.reset).rsp = some 0x00000001 ∧ (after 0x88000001 State.reset).ebuf = [true] := by decide

/-- R192 at `EBUF_CAP` = 7. -/
theorem test_puteb_full : (after 0x88000001 { tiny with ebuf := List.replicate 7 false }).rsp = some 0x30000007 := by decide

/-- R193 with P2's `b` = 110: the code's first bit comes first. -/
theorem test_encsym : (after 0x90000062 { abra with ebuf := [false] }).rsp = some 0x00000004 ∧
    (after 0x90000062 { abra with ebuf := [false] }).ebuf = [false, true, true, false] := by decide

/-- R193: `E_NOSYM(sym)`. -/
theorem test_encsym_without_code : (after 0x9000007A abra).rsp = some 0x8000007A := by decide

/-- R194's example (S2). -/
theorem test_encode : (after 0x98000000 { single with ibuf := [0x61, 0x61, 0x61, 0x61] }).rsp = some 0x00000004 ∧
    (after 0x98000000 { single with ibuf := [0x61, 0x61, 0x61, 0x61] }).ebuf = [false, false, false, false] := by decide

/-- R194: `E_NOSYM(k)` with the position, and the stream is left empty. -/
theorem test_encode_without_code : (after 0x98000000 { single with ibuf := [0x61, 0x62], ebuf := [true] }).rsp = some 0x80000001 ∧
    (after 0x98000000 { single with ibuf := [0x61, 0x62], ebuf := [true] }).ebuf = [] := by decide

/-- R195's example. -/
theorem test_rdelen : (after 0xA0000000 { State.reset with ebuf := [false, false, false, false] }).rsp = some 0x00000004 := by decide

/-- R196's example. -/
theorem test_rdebit : (after 0xA8000003 { State.reset with ebuf := [true, true, true, false] }).rsp = some 0x00000000 ∧
    (after 0xA8000004 { State.reset with ebuf := [true, true, true, false] }).rsp = some 0x20000004 := by decide

/-- P1: `1 1 0` is packed to 05 C0. -/
theorem test_pack : (after 0xB0000000 { State.reset with ebuf := [true, true, false] }).rsp = some 0x00000002 ∧
    (after 0xB0000000 { State.reset with ebuf := [true, true, false] }).obuf = [0x05, 0xC0] ∧
    (after 0xB0000000 { State.reset with ebuf := [true, true, false] }).pad = 5 := by decide

/-- R212 and R114: the empty artifact. -/
theorem test_pack_empty : (after 0xB0000000 State.reset).obuf = [0x08, 0x00] := by decide

/-- R215's example. -/
theorem test_rdpad : (after 0xB8000000 { State.reset with pad := 4 }).rsp = some 0x00000004 := by decide

/-- P3, row 23: the stripped bits are not examined. -/
theorem test_unpack : (after 0xC0000000 { State.reset with ibuf := [0x03, 0x5F] }).rsp = some 0x00000005 ∧
    (after 0xC0000000 { State.reset with ibuf := [0x03, 0x5F] }).ebuf = [false, true, false, true, true] := by decide

/-- P3, row 18. -/
theorem test_unpack_padcount : (after 0xC0000000 { State.reset with ibuf := [0x09, 0xFF], ebuf := [true] }).rsp = some 0xA0000009 ∧
    (after 0xC0000000 { State.reset with ibuf := [0x09, 0xFF], ebuf := [true] }).elen = 0 := by decide

/-- P2's codes: `0 110 111 0` is "abra". -/
theorem test_decode_walk : (after 0xC8000000 { abra with ebuf := [false, true, true, false, true, true, true, false] }).obuf =
    [0x61, 0x62, 0x72, 0x61] := by decide +kernel

/-- R240: two bits left inside a code, and the output is left empty. -/
theorem test_decode_leftover : (after 0xC8000000 { abra with ebuf := [false, true, true], obuf := [1] }).rsp = some 0xD0000002 ∧
    (after 0xC8000000 { abra with ebuf := [false, true, true], obuf := [1] }).obuf = [] := by decide +kernel

/-- R269's example. -/
theorem test_rdolen : (after 0xD0000000 { State.reset with obuf := [0x04, 0x00] }).rsp = some 0x00000002 := by decide

/-- R270's example. -/
theorem test_rdob : (after 0xD8000000 { State.reset with obuf := [0x04, 0x00] }).rsp = some 0x00000004 ∧
    (after 0xD8000002 { State.reset with obuf := [0x04, 0x00] }).rsp = some 0x20000002 := by decide

/-- V-E2, row 4. -/
theorem test_illegal : (after 0xFFFFFFFF State.reset).rsp = some 0x10FFFFFF ∧ (after 0xFFFFFFFF State.reset).statusWord = 1 ∧
    (after 0xFFFFFFFF State.reset).finfo = 0xFFFFFF := by decide

/-! ## Witnesses: for every obligation with hypotheses, states and operands that meet them -/

/-- GENTAB computes the tables written above: what R170 gives for their trees. -/
theorem test_tables_are_generated :
    generate single.tree single.root single.rootv = .ok ⟨single.ctab, 1⟩ ∧
    generate pair.tree pair.root pair.rootv = .ok ⟨pair.ctab, 2⟩ ∧
    generate abra.tree abra.root abra.rootv = .ok ⟨abra.ctab, 5⟩ := ⟨rfl, rfl, rfl⟩

theorem bare_inv : Inv bare :=
  inv_of_generate (n := 0) (by decide) (by decide) (by decide) (by decide) (by decide) rfl

/-- The invariant of a single-leaf state, whatever its buffers and capacities hold. -/
theorem single_inv (c : Config) (i o : List Byte) (e : BitString) (hi : i.length ≤ c.ibufCap)
    (he : e.length ≤ c.ebufCap) (ho : o.length ≤ c.obufCap) :
    Inv { single with cfg := c, ibuf := i, ebuf := e, obuf := o } :=
  inv_of_generate (n := 1) hi he ho (show (0 : Byte).toNat ≤ 8 by decide) (fun _ => rfl) test_tables_are_generated.1

/-- The invariant of a two-leaf state, whatever its buffers and capacities hold. -/
theorem pair_inv (c : Config) (i o : List Byte) (e : BitString) (hi : i.length ≤ c.ibufCap)
    (he : e.length ≤ c.ebufCap) (ho : o.length ≤ c.obufCap) :
    Inv { pair with cfg := c, ibuf := i, ebuf := e, obuf := o } :=
  inv_of_generate (n := 2) hi he ho (show (0 : Byte).toNat ≤ 8 by decide) (fun _ => rfl) test_tables_are_generated.2.1

/-- The invariant of a five-leaf state, whatever its buffers and capacities hold. -/
theorem abra_inv (c : Config) (i o : List Byte) (e : BitString) (hi : i.length ≤ c.ibufCap)
    (he : e.length ≤ c.ebufCap) (ho : o.length ≤ c.obufCap) :
    Inv { abra with cfg := c, ibuf := i, ebuf := e, obuf := o } :=
  inv_of_generate (n := 5) hi he ho (show (0 : Byte).toNat ≤ 8 by decide) (fun _ => rfl) test_tables_are_generated.2.2

/-- The two-leaf tree of `pair`. -/
theorem pair_unfolds : Unfolds pairTree 0 (.node (.leaf 0x78) (.leaf 0x79)) :=
  .node (l := 1) (r := 2) (by decide) (.leaf (by decide)) (.leaf (by decide))

theorem witness_DecodeEncodeRoundTrip :
    (Instr.ldint 511 511 511).wellFormed = true ∧ (Instr.ldleaf 511 255).wellFormed = true ∧
    (Instr.rdcbit 255 255).wellFormed = true ∧ (Instr.rdob 1048575).wellFormed = true := by decide

theorem witness_DecodedWordsEncodeBack :
    decode 0x3FFFFFFF = .ok (.ldint 511 511 511) ∧ decode 0x88000001 = .ok (.puteb true) := by decide

/-- A word of a command, matched by its row, and one of none. -/
theorem witness_LegalExactlyWhenOneTableRowMatches :
    (∃ s : State, s.inbox = [.command 0x3838180D]) ∧ (∃ s : State, s.inbox = [.command 0xE0000000]) ∧
    decode 0x3838180D = .ok (.ldint 14 12 13) ∧ (¬ ∃ i, decode 0xE0000000 = .ok i) ∧
    ∃ row ∈ opcodeTable, row.Matches 0x3838180D := by
  refine ⟨⟨State.reset.withFetchWord 32 0x3838180D, by decide⟩, ⟨State.reset.withFetchWord 32 0xE0000000, by decide⟩,
    by decide, ?_, ⟨⟨7, 0x38000000, 0xF8000000⟩, by decide, ?_⟩⟩
  · rintro ⟨i, h⟩
    rw [show decode 0xE0000000 = .error .reservedOpcode by decide] at h
    cases h
  · show (_ : Word) = _
    decide

/-- Opcode 28 and opcode 31, and a reserved bit under opcode 0. -/
theorem witness_ReservedWordsAreIllegal :
    28 ≤ (0xE0000000 : Word).toNat / 2 ^ 27 ∧ 28 ≤ (0xFFFFFFFF : Word).toNat / 2 ^ 27 ∧
    ∃ row ∈ opcodeTable, row.opcode = (1 : Word).toNat / 2 ^ 27 ∧ ¬ row.Matches 1 := by
  refine ⟨by decide, by decide, ⟨0, 0x00000000, 0xFFFFFFFF⟩, by decide, by decide, ?_⟩
  show ¬ ((_ : Word) = _)
  decide

theorem witness_StepRunsTheHostsNextEvent :
    (State.reset.withFetchWord 32 0x70000061).inbox = [.command 0x70000061] ∧ decode 0x70000061 = .ok (.putb 0x61) ∧
    (∃ s : State, s.inbox = [.hardwareReset]) ∧ State.reset.inbox = [] ∧
    0xD80FFFFF < 2 ^ 32 ∧ decode (BitVec.ofNat 32 0xD80FFFFF) = .ok (.rdob 1048575) :=
  ⟨by decide, by decide, ⟨{ State.reset with inbox := [.hardwareReset] }, rfl⟩, rfl, by decide, by decide⟩

/-- One command that completes and one illegal word. -/
theorem witness_EveryCommandIsAnswered :
    (State.reset.withFetchWord 32 0).inbox = .command 0 :: [] ∧
    (State.reset.withFetchWord 32 0xFFFFFFFF).inbox = .command 0xFFFFFFFF :: [] := by decide

theorem witness_ResetCommandAndHardwareResetAgree :
    ∃ s : State, s.inbox = .hardwareReset :: [] ∧ s.ctabv = true :=
  ⟨{ pair with inbox := [.hardwareReset] }, rfl, rfl⟩

theorem witness_RdfinfoReturnsTheInformation : Inv State.reset ∧ State.reset.err = 0 :=
  ⟨inv_of_no_table (by decide) (by decide) (by decide) (by decide) (by decide) rfl, rfl⟩

/-- The last index with an entry and the one index past it, for LDLEAF. -/
theorem witness_LdleafWritesOneLeaf :
    511 < 512 ∧ (∃ n m : NodeIdx, n.val = 510 ∧ m ≠ n) ∧ 510 < 511 :=
  ⟨by decide, ⟨510, 0, by decide, by decide⟩, by decide⟩

/-- Each of the three operands of LDINT past 510 while those before it are not. -/
theorem witness_LdintWritesOneInternalNode :
    (511 < 512 ∧ 511 < 512 ∧ 511 < 512) ∧ (∃ n l r : NodeIdx, n.val = 510 ∧ l.val = 510 ∧ r.val = 510) ∧
    (∃ idx left right : Nat, 510 < idx ∧ ¬ 510 < left ∧ ¬ 510 < right) ∧
    (∃ idx left right : Nat, ¬ 510 < idx ∧ 510 < left ∧ 510 < right) ∧
    ∃ idx left right : Nat, ¬ 510 < idx ∧ ¬ 510 < left ∧ 510 < right :=
  ⟨by decide, ⟨510, 510, 510, by decide⟩, ⟨511, 510, 0, by decide⟩, ⟨510, 511, 511, by decide⟩, ⟨0, 510, 511, by decide⟩⟩

theorem witness_SetrootNamesTheRoot : 511 < 512 ∧ (∃ n : NodeIdx, n.val = 510) ∧ 510 < 511 :=
  ⟨by decide, ⟨510, rfl⟩, by decide⟩

/-- An unloaded entry, a leaf and an internal node. -/
theorem witness_RdnodeReturnsTheNodeWord :
    511 < 512 ∧ nodeAt pair.tree 510 = none ∧ nodeAt pair.tree 2 = some (.leaf 0x79) ∧
    nodeAt pair.tree 0 = some (.internal 1 2) ∧ 510 < 511 := by decide +kernel

/-- An empty codebook; a well-formed one; a GENTAB that completes. -/
theorem witness_GentabCompletesExactlyOnWellFormed :
    State.reset.rootv = false ∧ pair.rootv = true ∧
    WellFormedTree pair.tree pair.root (.node (.leaf 0x78) (.leaf 0x79)) ∧
    ∃ t, exec .gentab State.reset = .next t ∧ Completed t :=
  ⟨rfl, rfl, ⟨pair_unfolds, by decide⟩, ⟨_, rfl, _, rfl, by decide⟩⟩

/-- A root that was never loaded (V-T2). -/
theorem witness_GentabFaultsLeaveNoTable : ¬ WellFormedCodebook { State.reset with root := 5, rootv := true } := by
  intro h
  obtain ⟨h, hu, -⟩ := h rfl
  have hn : nodeAt State.reset.tree 5 = none := by decide
  cases hu with
  | leaf hx => exact absurd (hn.symm.trans hx) (by simp)
  | node hx _ _ => exact absurd (hn.symm.trans hx) (by simp)

/-- A GENTAB that completes and stores a code. -/
theorem witness_GentabCodesArePrefixFree :
    (∃ t, exec .gentab pair = .next t ∧ Completed t) ∧ ∃ t, exec .gentab pair = .next t ∧ codeOf t.ctab 0x78 ≠ [] :=
  ⟨⟨run .gentab pair, rfl, answer 0 2, by decide +kernel, by decide⟩, ⟨run .gentab pair, rfl, by decide +kernel⟩⟩

/-- A table, and none. -/
theorem witness_RdlenReadsTheLength : single.ctabv = true ∧ State.reset.ctabv = false := ⟨rfl, rfl⟩

/-- No table; a position at the length; the last position of a code; the widest `pos` field. -/
theorem witness_RdcbitReadsOneBit :
    State.reset.ctabv = false ∧ single.ctabv = true ∧ (codeOf single.ctab 0x61).length ≤ 1 ∧
    ¬ (codeOf single.ctab 0x61).length ≤ 0 ∧ 255 < 256 := by decide

/-- A full input buffer, and one with room for one byte. -/
theorem witness_ClrinAndPutbFillTheInput :
    (∃ s : State, s.ilen = s.cfg.ibufCap) ∧ ∃ s : State, s.ilen + 1 = s.cfg.ibufCap :=
  ⟨⟨{ tiny with ibuf := [1, 2] }, rfl⟩, ⟨{ tiny with ibuf := [1] }, rfl⟩⟩

/-- An index at the length, one before it, and the widest `index` field. -/
theorem witness_RdobReadsOneByte :
    (∃ s : State, s.olen ≤ 1 ∧ ¬ s.olen ≤ 0) ∧ 1048575 < 2 ^ 20 :=
  ⟨⟨{ State.reset with obuf := [4] }, by decide, by decide⟩, by decide⟩

/-- An index at the length, one before it, and the widest `index` field. -/
theorem witness_RdebitReadsOneBit :
    (∃ s : State, s.elen ≤ 1 ∧ ¬ s.elen ≤ 0) ∧ 1048575 < 2 ^ 20 :=
  ⟨⟨{ State.reset with ebuf := [true] }, by decide, by decide⟩, by decide⟩

/-- A full stream, and one with room for one bit. -/
theorem witness_ClreAndPutebFillTheStream :
    (∃ s : State, s.elen = s.cfg.ebufCap) ∧ ∃ s : State, s.elen + 1 = s.cfg.ebufCap :=
  ⟨⟨{ tiny with ebuf := List.replicate 7 true }, rfl⟩, ⟨{ tiny with ebuf := List.replicate 6 true }, rfl⟩⟩

/-- No table; no code; a code one bit too long for the stream; a code that just fits. -/
theorem witness_EncsymAppendsAWholeCode :
    State.reset.ctabv = false ∧ (single.ctabv = true ∧ codeOf single.ctab 0x62 = []) ∧
    (∃ s : State, s.ctabv = true ∧ codeOf s.ctab 0x61 ≠ [] ∧
      s.elen + (codeOf s.ctab 0x61).length = s.cfg.ebufCap + 1) ∧
    ∃ s : State, s.ctabv = true ∧ codeOf s.ctab 0x61 ≠ [] ∧ s.elen + (codeOf s.ctab 0x61).length = s.cfg.ebufCap :=
  ⟨rfl, ⟨rfl, by decide⟩, ⟨{ tiny with ebuf := List.replicate 7 true }, rfl, by decide, by decide⟩,
    ⟨{ tiny with ebuf := List.replicate 6 true }, rfl, by decide, by decide⟩⟩

/-- One byte; the headers 0, 9 and 1, 8 at the ends of the legal range; a stream longer than the output's capacity
allows, which takes an input buffer larger than the output buffer; one as long as it allows. -/
theorem witness_UnpackStripsHeaderAndPadding :
    (∃ s : State, s.ilen = 1) ∧
    (∃ s : State, s.ilen = 2 ∧ (s.ibuf.getD 0 0).toNat = 0) ∧ (∃ s : State, s.ilen = 2 ∧ (s.ibuf.getD 0 0).toNat = 9) ∧
    (∃ s : State, s.ilen = 3 ∧ (s.ibuf.getD 0 0).toNat = 8 ∧
      s.cfg.ebufCap < 8 * (s.ilen - 1) - (s.ibuf.getD 0 0).toNat) ∧
    ∃ s : State, s.ilen = 2 ∧ (s.ibuf.getD 0 0).toNat = 1 ∧
      s.cfg.ebufCap = 8 * (s.ilen - 1) - (s.ibuf.getD 0 0).toNat :=
  ⟨⟨{ tiny with ibuf := [1] }, rfl⟩, ⟨{ tiny with ibuf := [0, 0] }, rfl, rfl⟩, ⟨{ tiny with ibuf := [9, 0] }, rfl, rfl⟩,
    ⟨{ tiny with cfg := ⟨3, 2, by decide, by decide, by decide, by decide⟩, ibuf := [8, 0, 0] }, rfl, rfl, by decide⟩,
    ⟨{ tiny with ibuf := [1, 0] }, rfl, rfl, by decide⟩⟩

/-- No table; an input that fits exactly (7 codes of one bit in 7 bits); a Symbol without a code after one with; an
input one code too long. -/
theorem witness_EncodeConcatenatesTheCodes :
    State.reset.ctabv = false ∧
    (∃ s : State, s.ctabv = true ∧ AllCoded s.ctab s.ibuf ∧ (encoded s.ctab s.ibuf).length = s.cfg.ebufCap) ∧
    (∃ (s : State) (before : List Byte) (x : Byte) (post : List Byte), s.ctabv = true ∧
      s.ibuf = before ++ x :: post ∧ AllCoded s.ctab before ∧ (encoded s.ctab before).length ≤ s.cfg.ebufCap ∧
      codeOf s.ctab x = []) ∧
    ∃ (s : State) (before : List Byte) (x : Byte) (post : List Byte), s.ctabv = true ∧
      s.ibuf = before ++ x :: post ∧ AllCoded s.ctab (before ++ [x]) ∧
      (encoded s.ctab before).length ≤ s.cfg.ebufCap ∧
      s.cfg.ebufCap < (encoded s.ctab (before ++ [x])).length := by
  have hc : ∀ n, AllCoded single.ctab (List.replicate n 0x61) := by
    intro n x hx
    rw [List.eq_of_mem_replicate hx]
    decide
  exact ⟨rfl, ⟨{ tiny with ibuf := List.replicate 7 0x61 }, rfl, hc 7, by decide⟩,
    ⟨{ single with ibuf := [0x61, 0x62] }, [0x61], 0x62, [], rfl, rfl, hc 1, by decide, by decide⟩,
    ⟨{ tiny with ibuf := List.replicate 8 0x61 }, List.replicate 7 0x61, 0x61, [], rfl, rfl, hc 8, by decide, by decide⟩⟩

/-- An ENCODE that completes; one that faults at its second Symbol, which has no code; one at its eighth, whose code
does not fit 7 bits; one without a table on an input that is not empty. -/
theorem witness_EncodeIsTheEncsymSequence :
    (∃ s t : State, exec .encode s = .next t ∧ Completed t) ∧
    (∃ s t : State, exec .encode s = .next t ∧ s.ctabv = true ∧ ¬ Completed t ∧ t.rsp = some (answer 8 1)) ∧
    (∃ s t : State, exec .encode s = .next t ∧ s.ctabv = true ∧ ¬ Completed t ∧ t.rsp = some (answer 3 7)) ∧
    ∃ (s t : State) (x : Byte) (post : List Byte), exec .encode s = .next t ∧ s.ctabv = false ∧ s.ibuf = x :: post := by
  have hc : ∀ (t : State) (c n : Nat), t.rsp = some (answer c n) → responseCode (answer c n) ≠ 0 → ¬ Completed t := by
    rintro t c n ht h0 ⟨r, hr, h⟩
    rw [ht] at hr
    cases hr
    exact h0 h
  exact ⟨⟨{ single with ibuf := [0x61] }, run .encode { single with ibuf := [0x61] }, rfl, answer 0 1, by decide,
      by decide⟩,
    ⟨{ single with ibuf := [0x61, 0x62] }, run .encode { single with ibuf := [0x61, 0x62] }, rfl, rfl,
      hc _ 8 1 (by decide) (by decide), by decide⟩,
    ⟨{ tiny with ibuf := List.replicate 8 0x61 }, run .encode { tiny with ibuf := List.replicate 8 0x61 }, rfl, rfl,
      hc _ 3 7 (by decide) (by decide), by decide⟩,
    ⟨{ State.reset with ibuf := [0x61] }, _, 0x61, [], rfl, rfl, rfl⟩⟩

theorem witness_PackPaddingBound : ∃ t, exec .pack { State.reset with ebuf := [true, true, false] } = .next t :=
  ⟨_, rfl⟩

theorem witness_PackIsInjectiveOnStreams :
    ∃ s1 s2 t1 t2 : State, s1.ebuf ≠ s2.ebuf ∧ exec .pack s1 = .next t1 ∧ exec .pack s2 = .next t2 :=
  ⟨State.reset, { State.reset with ebuf := [false] }, _, _, by decide, rfl, rfl⟩

theorem witness_UnpackFitsWhenInputIsNoLarger :
    ∃ s t : State, Inv s ∧ s.cfg.ibufCap ≤ s.cfg.obufCap ∧ exec .unpack s = .next t :=
  ⟨{ single with cfg := tinyConfig, ibuf := [1, 0x55], ebuf := [], obuf := [] }, _,
    single_inv tinyConfig _ _ _ (by decide) (by decide) (by decide), by decide, rfl⟩

/-- P1's stream packed and unpacked; P3's artifact unpacked and packed. -/
theorem witness_UnpackUndoesPack :
    (∃ s p u : State, s.elen ≤ s.cfg.ebufCap ∧ exec .pack s = .next p ∧ u.ibuf = p.obuf ∧ u.cfg = s.cfg) ∧
    ∃ u v p : State, exec .unpack u = .next v ∧ Completed v ∧ exec .pack v = .next p :=
  ⟨⟨{ State.reset with ebuf := [true, true, false] }, _,
      { State.reset with ibuf := (run .pack { State.reset with ebuf := [true, true, false] }).obuf }, by decide, rfl,
      rfl, rfl⟩,
    ⟨{ State.reset with ibuf := [0x03, 0x5F] }, run .unpack { State.reset with ibuf := [0x03, 0x5F] }, _, rfl,
      ⟨answer 0 5, by decide, by decide⟩, rfl⟩⟩

/-- No table; no bits; bits without a codebook. -/
theorem witness_DecodeOutcomeByStream_without_codes :
    (∃ s : State, Inv s ∧ s.ctabv = false) ∧ (∃ s : State, Inv s ∧ s.ctabv = true ∧ s.ebuf = []) ∧
    ∃ s : State, Inv s ∧ s.ctabv = true ∧ s.ebuf ≠ [] ∧ s.rootv = false :=
  ⟨⟨State.reset, witness_RdfinfoReturnsTheInformation.1, rfl⟩, ⟨bare, bare_inv, rfl, rfl⟩,
    ⟨{ bare with ebuf := [true] },
      inv_of_generate (n := 0) (by decide) (by decide) (by decide) (by decide) (by decide) rfl, rfl, by decide, rfl⟩⟩

/-- Whole codes that fill a 2-byte output exactly. -/
theorem witness_DecodeOutcomeByStream_whole_codes :
    ∃ (s : State) (syms : List Byte), Inv s ∧ s.ctabv = true ∧ AllCoded s.ctab syms ∧
      s.ebuf = encoded s.ctab syms ∧ syms.length = s.cfg.obufCap :=
  ⟨{ pair with cfg := tinyConfig, ibuf := [], ebuf := [true, false], obuf := [] }, [0x79, 0x78],
    pair_inv _ _ _ _ (by decide) (by decide) (by decide), rfl, by simp; decide, by decide, rfl⟩

set_option maxRecDepth 8000 in
/-- Whole codes that fill the output, then two bits of a code of three. -/
theorem witness_DecodeOutcomeByStream_inside :
    ∃ (s : State) (syms : List Byte) (x : Byte) (left : BitString), Inv s ∧ s.ctabv = true ∧ AllCoded s.ctab syms ∧
      s.ebuf = encoded s.ctab syms ++ left ∧ left ≠ [] ∧ left <+: codeOf s.ctab x ∧ left ≠ codeOf s.ctab x ∧
      syms.length = s.cfg.obufCap :=
  ⟨{ abra with cfg := tinyConfig, ibuf := [], ebuf := [false, true, false, false, true, true], obuf := [] },
    [0x61, 0x63], 0x62, [true, true], abra_inv _ _ _ _ (by decide) (by decide) (by decide), rfl, by simp; decide,
    by decide, by decide, by decide, by decide, rfl⟩

/-- One code more than a 2-byte output takes. -/
theorem witness_DecodeOutcomeByStream_overflow :
    ∃ (s : State) (syms : List Byte) (x : Byte) (rest : BitString), Inv s ∧ s.ctabv = true ∧
      AllCoded s.ctab (syms ++ [x]) ∧ s.ebuf = encoded s.ctab (syms ++ [x]) ++ rest ∧ syms.length = s.cfg.obufCap :=
  ⟨{ pair with cfg := tinyConfig, ibuf := [], ebuf := [true, false, true, true], obuf := [] }, [0x79, 0x78], 0x79,
    [true], pair_inv _ _ _ _ (by decide) (by decide) (by decide), rfl, by simp; decide, by decide, rfl⟩

/-- A 1 bit after as many 0 bits as the output takes, under the single-leaf tree. -/
theorem witness_DecodeOutcomeByStream_nocode :
    ∃ (s : State) (sym : Byte) (zeros : Nat) (rest : BitString), Inv s ∧ s.ctabv = true ∧ s.rootv = true ∧
      nodeAt s.tree s.root = some (.leaf sym) ∧ s.ebuf = List.replicate zeros false ++ true :: rest ∧
      zeros = s.cfg.obufCap :=
  ⟨{ single with cfg := tinyConfig, ibuf := [], ebuf := [false, false, true, false], obuf := [] }, 0x61, 2, [false],
    single_inv _ _ _ _ (by decide) (by decide) (by decide), rfl, rfl, by decide, by decide, rfl⟩

set_option maxRecDepth 8000 in
/-- A DECODE that completes (P2's codes of "ab") and one that does not. -/
theorem witness_TreeWalkEqualsTableMatch :
    (∃ s t : State, Inv s ∧ s.ctabv = true ∧ exec .decode s = .next t ∧ Completed t ∧ t.obuf = [0x61, 0x62]) ∧
    ∃ s t : State, Inv s ∧ s.ctabv = true ∧ exec .decode s = .next t ∧ t.rsp = some (answer 13 2) :=
  ⟨⟨{ abra with cfg := tinyConfig, ibuf := [], ebuf := [false, true, true, false], obuf := [] },
      run .decode { abra with cfg := tinyConfig, ibuf := [], ebuf := [false, true, true, false], obuf := [] },
      abra_inv _ _ _ _ (by decide) (by decide) (by decide), rfl, rfl, ⟨answer 0 2, by decide, by decide⟩, by decide⟩,
    ⟨{ abra with cfg := tinyConfig, ibuf := [], ebuf := [false, true, true], obuf := [] },
      run .decode { abra with cfg := tinyConfig, ibuf := [], ebuf := [false, true, true], obuf := [] },
      abra_inv _ _ _ _ (by decide) (by decide) (by decide), rfl, rfl, by decide⟩⟩

/-- A DECODE that completes, and another sequence with the same codes: the same one. -/
theorem witness_DecodeCompletesOnlyOnWholeCodes :
    ∃ (s t : State) (syms : List Byte), Inv s ∧ exec .decode s = .next t ∧ Completed t ∧ AllCoded s.ctab syms ∧
      s.ebuf = encoded s.ctab syms :=
  ⟨{ pair with cfg := tinyConfig, ibuf := [], ebuf := [true, false], obuf := [] },
    run .decode { pair with cfg := tinyConfig, ibuf := [], ebuf := [true, false], obuf := [] }, [0x79, 0x78],
    pair_inv _ _ _ _ (by decide) (by decide) (by decide), rfl, ⟨answer 0 2, by decide, by decide⟩, by simp; decide,
    by decide⟩

/-- Two bytes through the least capacities, and the empty sequence under the empty codebook (P5). -/
theorem witness_CompressThenDecompressRoundTrips :
    (∃ s : State, Inv s ∧ s.ctabv = true ∧ s.ibuf = [0x79, 0x78] ∧ AllCoded s.ctab s.ibuf ∧
      (encoded s.ctab s.ibuf).length ≤ s.cfg.ebufCap ∧ s.ilen ≤ s.cfg.obufCap ∧
      (encoded s.ctab s.ibuf).length / 8 + 2 ≤ s.cfg.ibufCap) ∧
    (Inv bare ∧ bare.ctabv = true ∧ AllCoded bare.ctab bare.ibuf ∧
      (encoded bare.ctab bare.ibuf).length ≤ bare.cfg.ebufCap ∧ bare.ilen ≤ bare.cfg.obufCap ∧
      (encoded bare.ctab bare.ibuf).length / 8 + 2 ≤ bare.cfg.ibufCap) :=
  ⟨⟨{ pair with cfg := tinyConfig, ibuf := [0x79, 0x78], ebuf := [], obuf := [] },
      pair_inv _ _ _ _ (by decide) (by decide) (by decide), rfl, rfl, by simp; decide, by decide, by decide, by decide⟩,
    bare_inv, rfl, by simp [bare, State.reset, State.resetWith], by decide, by decide, by decide⟩

set_option maxRecDepth 8000 in
/-- An artifact of two bytes; one of three, whose last 8 code bits are the codes of the last 8 Symbols; and one of
three, whose 8 last code bits (of the codes 0 100 100 100) begin inside a code. -/
theorem witness_TruncationIsDetectedOnlySometimes :
    (∃ s p : State, Inv s ∧ s.ctabv = true ∧ s.elen ≤ s.cfg.ebufCap ∧ exec .pack s = .next p ∧ p.olen = 2) ∧
    (∃ (s p : State) (syms : List Byte), Inv s ∧ s.ctabv = true ∧ s.elen ≤ s.cfg.ebufCap ∧
      exec .pack s = .next p ∧ p.olen = 3 ∧ AllCoded s.ctab syms ∧ s.ebuf = encoded s.ctab syms ∧
      syms.length ≤ s.cfg.obufCap ∧ (encoded s.ctab (syms.drop (syms.length - 8))).length = 8 ∧
      ∃ w, exec .decode { s with ebuf := s.ebuf.take (s.elen - 8) } = .next w ∧ Completed w) ∧
    ∃ (s p : State) (syms : List Byte), Inv s ∧ s.ctabv = true ∧ s.elen ≤ s.cfg.ebufCap ∧
      exec .pack s = .next p ∧ p.olen = 3 ∧ AllCoded s.ctab syms ∧ s.ebuf = encoded s.ctab syms ∧
      syms.length ≤ s.cfg.obufCap ∧
      ∃ w, exec .decode { s with ebuf := s.ebuf.take (s.elen - 8) } = .next w ∧ w.rsp = some (answer 13 1) := by
  refine ⟨⟨{ pair with cfg := .default, ibuf := [], ebuf := [true], obuf := [] }, _,
      pair_inv _ _ _ _ (by decide) (by decide) (by decide), rfl, by decide, rfl, by decide⟩,
    ⟨{ pair with cfg := .default, ibuf := [], ebuf := List.replicate 9 true, obuf := [] }, _, List.replicate 9 0x79,
      pair_inv _ _ _ _ (by decide) (by decide) (by decide), rfl, by decide, rfl, by decide, ?_, by decide, by decide,
      by decide, run .decode { pair with cfg := .default, ibuf := [], ebuf := [true], obuf := [] }, rfl,
      ⟨answer 0 1, by decide, by decide⟩⟩,
    ⟨{ abra with
        cfg := .default
        ibuf := []
        ebuf := [false, true, false, false, true, false, false, true, false, false]
        obuf := [] }, _, [0x61, 0x63, 0x63, 0x63], abra_inv _ _ _ _ (by decide) (by decide) (by decide), rfl, by decide,
      rfl, by decide, by simp; decide, by decide, by decide,
      run .decode { abra with cfg := .default, ibuf := [], ebuf := [false, true], obuf := [] }, rfl, by decide⟩⟩
  intro x hx
  rw [List.eq_of_mem_replicate hx]
  decide

/-- A command, an illegal word and a hardware reset from a state with a valid table. -/
theorem witness_StepKeepsTheInvariant :
    (∃ s t : State, Inv s ∧ s.ctabv = true ∧ step s = .next t ∧ t.ibuf = [0x79]) ∧
    (∃ s t : State, Inv s ∧ step s = .next t ∧ t.err = 1) ∧
    ∃ s t : State, Inv s ∧ s.ctabv = true ∧ step s = .next t ∧ t.ctabv = false := by
  have h : ∀ l : List HostEvent, Inv { pair with inbox := l } := fun l =>
    inv_of_generate (n := 2) (Nat.zero_le _) (Nat.zero_le _) (Nat.zero_le _) (show (0 : Byte).toNat ≤ 8 by decide) (fun _ => rfl) test_tables_are_generated.2.1
  exact ⟨⟨_, _, h [.command 0x70000079], rfl, rfl, rfl⟩, ⟨_, _, h [.command 0xFFFFFFFF], rfl, rfl⟩,
    ⟨_, _, h [.hardwareReset], rfl, rfl, rfl⟩⟩

/-- A command that completes and writes its component. -/
theorem witness_CommandsWriteOnlyTheirComponents :
    ∃ t, exec (.putb 0x61) State.reset = .next t ∧ Completed t ∧ Component.record ∉ mayWrite (.putb 0x61) ∧
      Component.tree ≠ .record ∧ Component.tree ∉ mayWrite (.putb 0x61) :=
  ⟨_, rfl, ⟨_, rfl, by decide⟩, by decide, by decide, by decide⟩

/-- A read that completes and one that faults. -/
theorem witness_ReadsHaveNoSideEffect :
    (∃ t, isRead .rdstat = true ∧ exec .rdstat pair = .next t ∧ Completed t) ∧
    ∃ t u, isRead (.rdob 0) = true ∧ exec (.rdob 0) State.reset = .next t ∧ t.err = 2 ∧ exec (.rdob 0) t = .next u :=
  ⟨⟨run .rdstat pair, rfl, rfl, answer 0 48, by decide, by decide⟩,
    ⟨run (.rdob 0) State.reset, _, rfl, rfl, by decide, rfl⟩⟩

/-- ENCODE without a table, PUTB on a full buffer, and an illegal word. -/
theorem witness_FaultsLeaveOnlyWhatIsListed :
    (∃ t, exec .encode State.reset = .next t ∧ ¬ Completed t) ∧
    (∃ t, exec (.putb 0) { tiny with ibuf := [1, 2] } = .next t ∧ ¬ Completed t) ∧
    (State.reset.withFetchWord 32 0xE0000000).inbox = .command 0xE0000000 :: [] ∧ ¬ ∃ i, decode 0xE0000000 = .ok i := by
  refine ⟨⟨run .encode State.reset, rfl, ?_⟩, ⟨run (.putb 0) { tiny with ibuf := [1, 2] }, rfl, ?_⟩, by decide,
    witness_LegalExactlyWhenOneTableRowMatches.2.2.2.1⟩ <;>
    rintro ⟨r, hr, h0⟩
  · rw [show (run .encode State.reset).rsp = some (answer 7 0) by decide] at hr
    cases hr
    exact absurd h0 (by decide)
  · rw [show (run (.putb 0) { tiny with ibuf := [1, 2] }).rsp = some (answer 3 2) by decide] at hr
    cases hr
    exact absurd h0 (by decide)

/-- A sequence of a legal word and an illegal one, without CLRERR and RESET, from a state with a fault on record and
from one without; its second word is the first to fault; and a sequence that does not fault. -/
theorem witness_FirstFaultIsKept :
    (∀ w ∈ [(0x70000001 : Word), 0xFFFFFFFF], decode w ≠ .ok .clrerr ∧ decode w ≠ .ok .reset) ∧
    (∃ s t : State, s.err ≠ 0 ∧ runWords [0x70000001, 0xFFFFFFFF] s = some t) ∧
    (∃ t u v, runWords [0x70000001, 0xFFFFFFFF] State.reset = some t ∧ runWords [0x70000001] State.reset = some u ∧
      u.err = 0 ∧ step (present u 0xFFFFFFFF) = .next v ∧ ¬ Completed v) ∧
    ∃ t, State.reset.err = 0 ∧ runWords [0x70000001] State.reset = some t ∧ t.err = 0 := by
  refine ⟨?_, ⟨{ State.reset with err := 9 },
      stepped (present (stepped (present { State.reset with err := 9 } 0x70000001)) 0xFFFFFFFF), by decide,
      by simp only [runWords, step_stepped]⟩,
    ⟨stepped (present (stepped (present State.reset 0x70000001)) 0xFFFFFFFF), stepped (present State.reset 0x70000001),
      stepped (present (stepped (present State.reset 0x70000001)) 0xFFFFFFFF), by simp only [runWords, step_stepped],
      by simp only [runWords, step_stepped], by decide, step_stepped _, ?_⟩,
    ⟨stepped (present State.reset 0x70000001), rfl, by simp only [runWords, step_stepped], by decide⟩⟩
  · simp only [List.mem_cons, List.not_mem_nil, or_false, forall_eq_or_imp, forall_eq]
    refine ⟨⟨?_, ?_⟩, ?_, ?_⟩ <;> decide
  rintro ⟨r, hr, h0⟩
  rw [show (stepped (present (stepped (present State.reset 0x70000001)) 0xFFFFFFFF)).rsp = some (answer 1 0xFFFFFF)
    by decide] at hr
  cases hr
  exact absurd h0 (by decide)

/-- A command that completes in a state with a response and events waiting. -/
theorem witness_NoCommandDependsOnHiddenState :
    ∃ (s t : State) (events : List HostEvent) (r : Option Word), exec (.putb 1) s = .next t ∧ events ≠ s.inbox ∧
      r ≠ s.rsp :=
  ⟨State.reset, _, [.hardwareReset], some 7, rfl, by decide, by decide⟩

/-- Each clause: SETROOT, CLRTREE, and a GENTAB that completes. -/
theorem witness_FlagsChangeOnlyByTheirCommands :
    (∃ t, exec (.setroot 3) State.reset = .next t ∧ t.rootv ≠ State.reset.rootv ∧ Completed t) ∧
    (∃ t, exec .clrtree single = .next t ∧ t.rootv ≠ single.rootv) ∧
    ∃ t, exec .gentab State.reset = .next t ∧ t.ctabv ≠ State.reset.ctabv ∧ Completed t :=
  ⟨⟨run (.setroot 3) State.reset, rfl, by decide, answer 0 0, by decide, by decide⟩, ⟨run .clrtree single, rfl, by decide⟩,
    ⟨run .gentab State.reset, rfl, by decide, answer 0 0, by decide, by decide⟩⟩

theorem witness_BehaviourIgnoresTheFaultRecord :
    ∃ t, (Instr.putb 1) ≠ .rdstat ∧ (Instr.putb 1) ≠ .rdfinfo ∧ exec (.putb 1) State.reset = .next t :=
  ⟨_, by decide, by decide, rfl⟩

/-- A step that changes the tree; a GENTAB that makes the table valid; a completed LDLEAF; a read without a table. -/
theorem witness_StaleTablesAreNeverUsed :
    (∃ t, exec (.ldleaf 0 1) State.reset = .next t ∧ t.tree ≠ State.reset.tree) ∧
    (∃ t, exec .gentab { single with ctab := noCodes, ctabv := false } = .next t ∧ t.ctab ≠ noCodes ∧ t.ctabv = true) ∧
    (∃ t, exec (.ldleaf 0 1) single = .next t ∧ Completed t) ∧
    ∃ t, State.reset.ctabv = false ∧ exec (.rdlen 0) State.reset = .next t :=
  ⟨⟨run (.ldleaf 0 1) State.reset, rfl, fun h => absurd (congrArg (nodeAt · 0) h) (by decide)⟩,
    ⟨run .gentab { single with ctab := noCodes, ctabv := false }, rfl,
      fun h => absurd (congrArg (codeOf · 0x61) h) (by decide), by decide⟩,
    ⟨_, rfl, _, rfl, by decide⟩, ⟨_, rfl, rfl⟩⟩

theorem witness_PadRecordsThePaddingCount :
    (∃ t, exec .pack State.reset = .next t) ∧
    (∃ t, exec .unpack { State.reset with ibuf := [0x03, 0x5F] } = .next t ∧ Completed t) ∧
    ∃ t, (Instr.decode) ≠ .rdpad ∧ exec .decode pair = .next t :=
  ⟨⟨_, rfl⟩, ⟨run .unpack { State.reset with ibuf := [0x03, 0x5F] }, rfl, answer 0 5, by decide, by decide⟩,
    ⟨_, by decide, rfl⟩⟩

/-- Two states with the same codebook, table, input, stream and capacities that differ elsewhere. -/
theorem witness_DataCommandsDependOnlyOnTheirInputs :
    ∃ s1 s2 : State, s1 ≠ s2 ∧ s1.cfg = s2.cfg ∧ s1.tree = s2.tree ∧ s1.root = s2.root ∧ s1.rootv = s2.rootv ∧
      s1.ctab = s2.ctab ∧ s1.ctabv = s2.ctabv ∧ s1.ibuf = s2.ibuf ∧ s1.ebuf = s2.ebuf ∧
      (∃ t1 t2, exec .gentab s1 = .next t1 ∧ exec .gentab s2 = .next t2) ∧
      (∃ t1 t2, exec .encode s1 = .next t1 ∧ exec .encode s2 = .next t2) ∧
      (∃ t1 t2, exec .pack s1 = .next t1 ∧ exec .pack s2 = .next t2) ∧
      (∃ t1 t2, exec .unpack s1 = .next t1 ∧ exec .unpack s2 = .next t2) ∧
      ∃ t1 t2, exec .decode s1 = .next t1 ∧ exec .decode s2 = .next t2 :=
  ⟨single, { single with pad := 3 }, fun h => absurd (congrArg State.pad h) (by decide), rfl, rfl, rfl, rfl, rfl, rfl, rfl, rfl,
    ⟨_, _, rfl, rfl⟩, ⟨_, _, rfl, rfl⟩, ⟨_, _, rfl, rfl⟩, ⟨_, _, rfl, rfl⟩, ⟨_, _, rfl, rfl⟩⟩

end Sys2Proof.Tests
end

section
/-! SUPPORT. What every command leaves: `exec_ends` says once, for all 28 commands, which states a command can leave, by a
fault after what R301 lists or by an answer after its writes. The invariant of R30 and the reset state (R34). -/

namespace Sys2Proof.Machine

open Sys2Proof.Safety

/-! ## What a command can do -/

/-- What a faulting command has written before its fault is entered (R301). -/
def faultLeaves (s : State) : Instr → State
  | .gentab => s.dropTable
  | .encode => { s with ebuf := [] }
  | .unpack => { s with ebuf := [] }
  | .decode => { s with obuf := [] }
  | _ => s

/-- What a completing command has written before it answers, with what its tests have established: one constructor for
each command that is no read (R67), and two for DECODE, which delivers nothing of an empty stream. -/
inductive Writes (s : State) : Instr → State → Prop where
  | nop : Writes s .nop s
  | read {i} : isRead i = true → Writes s i s
  | reset : Writes s .reset s.hardReset
  | clrerr : Writes s .clrerr s.clearRecord
  | clrtree : Writes s .clrtree (State.invalidateTable { s with tree := noNodes, root := 0, rootv := false })
  | ldleaf {idx sym n} : nodeIdx? idx = some n →
      Writes s (.ldleaf idx sym) (State.invalidateTable { s with tree := setNode s.tree n (.leaf sym) })
  | ldint {idx left right n l r} : nodeIdx? idx = some n → nodeIdx? left = some l → nodeIdx? right = some r →
      Writes s (.ldint idx left right) (State.invalidateTable { s with tree := setNode s.tree n (.internal l r) })
  | setroot {idx n} : nodeIdx? idx = some n →
      Writes s (.setroot idx) (State.invalidateTable { s with root := n, rootv := true })
  | gentab {w} : generate s.tree s.root s.rootv = .ok w → Writes s .gentab (s.installTable w.table)
  | clrin : Writes s .clrin { s with ibuf := [] }
  | putb {b} : s.ilen ≠ s.cfg.ibufCap → Writes s (.putb b) { s with ibuf := s.ibuf ++ [b] }
  | clre : Writes s .clre { s with ebuf := [] }
  | puteb {b} : s.elen ≠ s.cfg.ebufCap → Writes s (.puteb b) { s with ebuf := s.ebuf ++ [b] }
  | encsym {sym} : s.elen + (codeOf s.ctab sym).length ≤ s.cfg.ebufCap →
      Writes s (.encsym sym) { s with ebuf := s.ebuf ++ codeOf s.ctab sym }
  | encode {e} : encodeFrom s.ctab s.cfg.ebufCap 0 [] s.ibuf = .ok e → Writes s .encode { s with ebuf := e }
  | pack : Writes s .pack { s with
      obuf := packBits s.ebuf, pad := BitVec.ofNat 8 (padCount s.elen), ebuf := [] }
  | unpack {len} : 1 ≤ (s.ibuf.getD 0 0).toNat → (s.ibuf.getD 0 0).toNat ≤ 8 → len ≤ s.cfg.ebufCap →
      Writes s .unpack { s with ebuf := unpackBits s.ibuf len, pad := s.ibuf.getD 0 0 }
  | decodeNothing : Writes s .decode { s with obuf := [] }
  | decode {out} : decodeBits s.tree s.root s.cfg.obufCap s.ebuf = .ok out → Writes s .decode { s with obuf := out }

/-- How a command ends: with a fault after what R301 lists, or with an answer after its writes. -/
inductive Ends (i : Instr) (s : State) : Result → Prop where
  | faults (e : Raised) : Ends i s (.next ((faultLeaves s i).raise e))
  | completes {u : State} (v : Nat) : Writes s i u → Ends i s (.next (u.complete v))

/-- The tests of UNPACK in their order (R232). -/
theorem execUnpack_ends (s : State) : Ends .unpack s (execUnpack s) := by
  unfold execUnpack
  by_cases hl : s.ilen < 2
  · rw [if_pos hl]
    exact .faults _
  · by_cases hp : (s.ibuf.getD 0 0).toNat < 1 ∨ 8 < (s.ibuf.getD 0 0).toNat
    · simp only [if_neg hl, if_pos hp]
      exact .faults _
    · by_cases hf : s.cfg.ebufCap < 8 * (s.ilen - 1) - (s.ibuf.getD 0 0).toNat
      · simp only [if_neg hl, if_neg hp, if_pos hf]
        exact .faults _
      · simp only [if_neg hl, if_neg hp, if_neg hf]
        exact .completes _ (.unpack (by omega) (by omega) (by omega))

/-- Every command ends in one of the ways listed, from every state. -/
theorem exec_ends (i : Instr) (s : State) : Ends i s (exec i s) := by
  cases i with
  | nop => exact .completes _ .nop
  | reset => exact .completes _ .reset
  | clrerr => exact .completes _ .clrerr
  | rdstat => exact .completes _ (.read rfl)
  | rdfinfo => exact .completes _ (.read rfl)
  | clrtree => exact .completes _ .clrtree
  | ldleaf idx sym =>
    simp only [exec, execLdleaf]
    split
    · exact .faults _
    · exact .completes _ (.ldleaf ‹_›)
  | ldint idx left right =>
    simp only [exec, execLdint]
    split
    · exact .faults _
    · split
      · exact .faults _
      · split
        · exact .faults _
        · exact .completes _ (.ldint ‹_› ‹_› ‹_›)
  | setroot idx =>
    simp only [exec, execSetroot]
    split
    · exact .faults _
    · exact .completes _ (.setroot ‹_›)
  | rdnode idx =>
    simp only [exec, execRdnode]
    split
    · exact .faults _
    · exact .completes _ (.read rfl)
  | gentab =>
    rcases execGentab_cases s with ⟨e, -, h⟩ | ⟨w, hg, h⟩ <;> rw [exec, h]
    · exact .faults _
    · exact .completes _ (.gentab hg)
  | rdlen sym =>
    simp only [exec, execRdlen]
    split
    · exact .faults _
    · exact .completes _ (.read rfl)
  | rdcbit pos sym =>
    simp only [exec, execRdcbit]
    split
    · exact .faults _
    · split
      · exact .faults _
      · exact .completes _ (.read rfl)
  | clrin => exact .completes _ .clrin
  | putb b =>
    simp only [exec, execPutb]
    split
    · exact .faults _
    · exact .completes _ (.putb ‹_›)
  | rdilen => exact .completes _ (.read rfl)
  | clre => exact .completes _ .clre
  | puteb b =>
    simp only [exec, execPuteb]
    split
    · exact .faults _
    · exact .completes _ (.puteb ‹_›)
  | encsym sym =>
    rcases execEncsym_cases sym s with ⟨-, h⟩ | ⟨-, -, h⟩ | ⟨-, -, -, h⟩ | ⟨-, -, hf, h⟩ <;> rw [exec, h]
    · exact .faults _
    · exact .faults _
    · exact .faults _
    · exact .completes _ (.encsym hf)
  | encode =>
    rcases execEncode_cases s with ⟨-, h⟩ | ⟨e, -, -, h⟩ | ⟨e, -, he, h⟩ <;> rw [exec, h]
    · exact .faults _
    · exact .faults _
    · exact .completes _ (.encode he)
  | rdelen => exact .completes _ (.read rfl)
  | rdebit index =>
    simp only [exec, execRdebit]
    split
    · exact .faults _
    · exact .completes _ (.read rfl)
  | pack =>
    rw [exec, execPack_eq]
    exact .completes _ .pack
  | rdpad => exact .completes _ (.read rfl)
  | unpack => exact execUnpack_ends s
  | decode =>
    rcases execDecode_cases s with ⟨-, h⟩ | ⟨-, -, h⟩ | ⟨-, -, -, h⟩ | ⟨e, -, -, -, -, h⟩ | ⟨out, -, -, -, hd, h⟩ <;>
      rw [exec, h]
    · exact .faults _
    · exact .completes _ .decodeNothing
    · exact .faults _
    · exact .faults _
    · exact .completes _ (.decode hd)
  | rdolen => exact .completes _ (.read rfl)
  | rdob index =>
    simp only [exec, execRdob]
    split
    · exact .faults _
    · exact .completes _ (.read rfl)

/-- A command that answers `t` has faulted after what R301 lists, or has completed after its writes. -/
theorem exec_cases {i : Instr} {s t : State} (h : exec i s = .next t) :
    (∃ e, t = (faultLeaves s i).raise e) ∨ ∃ u v, Writes s i u ∧ t = u.complete v := by
  have he := exec_ends i s
  rw [h] at he
  cases he with
  | faults e => exact .inl ⟨e, rfl⟩
  | completes v hw => exact .inr ⟨_, v, hw, rfl⟩

/-! ## The invariant of R30 -/

theorem inv_complete {s : State} (h : Inv s) (v : Nat) : Inv (s.complete v) := { h with }

theorem inv_raise {s : State} (h : Inv s) (e : Raised) : Inv (s.raise e) :=
  { h with
    finfo_zero := by
      have hn := e.code.number_ne.1
      simp only [State.raise_err, State.raise_finfo]
      split <;> simp_all }

theorem inv_setEbuf {s : State} (h : Inv s) {e : BitString} (he : e.length ≤ s.cfg.ebufCap) :
    Inv { s with ebuf := e } := { h with elen_le := he }

theorem inv_setObuf {s : State} (h : Inv s) {o : List Byte} (ho : o.length ≤ s.cfg.obufCap) :
    Inv { s with obuf := o } := { h with olen_le := ho }

theorem inv_setIbuf {s : State} (h : Inv s) {b : List Byte} (hb : b.length ≤ s.cfg.ibufCap) :
    Inv { s with ibuf := b } := { h with ilen_le := hb }

theorem inv_setPad {s : State} (h : Inv s) {p : Byte} (hp : p.toNat ≤ 8) : Inv { s with pad := p } :=
  { h with pad_le := hp }

/-- A change of the tree or its root that invalidates the table keeps the invariant, whatever was written (R71). -/
theorem inv_changeTree {s : State} (h : Inv s) (tree : Tree) (root : NodeIdx) (rootv : Bool) :
    Inv (State.invalidateTable { s with tree := tree, root := root, rootv := rootv }) :=
  inv_of_no_table h.ilen_le h.elen_le h.olen_le h.pad_le h.finfo_zero rfl

theorem inv_dropTable {s : State} (h : Inv s) : Inv s.dropTable :=
  inv_of_no_table h.ilen_le h.elen_le h.olen_le h.pad_le h.finfo_zero rfl

theorem inv_resetWith (c : Config) : Inv (State.resetWith c) :=
  inv_of_no_table (Nat.zero_le _) (Nat.zero_le _) (Nat.zero_le _) (by simp) (fun _ => rfl) rfl

theorem inv_hardReset (s : State) : Inv s.hardReset := { inv_resetWith s.cfg with }

/-- DECODE under a single-symbol codebook stops at the capacity (R240). -/
theorem decodeSingle_length {cap : Nat} {sym : Byte} {i : Nat} {out res : List Byte} {e : BitString}
    (ho : out.length ≤ cap) (h : decodeSingle cap sym i out e = .ok res) : res.length ≤ cap := by
  induction e generalizing i out with
  | nil => cases h; exact ho
  | cons b e ih =>
    rw [decodeSingle] at h
    split at h
    · cases h
    · split at h
      · cases h
      · exact ih (by rw [List.length_append, List.length_singleton]; omega) h

/-- The walk of DECODE stops at the capacity (R240). -/
theorem decodeWalk_length {t : Tree} {cap : Nat} {rl rr l r : NodeIdx} {i clen : Nat} {out res : List Byte}
    {e : BitString} (ho : out.length ≤ cap) (h : decodeWalk t cap rl rr i l r clen out e = .ok res) :
    res.length ≤ cap := by
  induction e generalizing i l r clen out with
  | nil =>
    rw [decodeWalk_nil] at h
    split at h
    · cases h
    · cases h; exact ho
  | cons b e ih =>
    rw [decodeWalk] at h
    split at h
    · split at h
      · cases h
      · exact ih (by rw [List.length_append, List.length_singleton]; omega) h
    · exact ih ho h

/-- What DECODE delivers fits the output buffer (R68). -/
theorem decodeBits_length {t : Tree} {root : NodeIdx} {cap : Nat} {e : BitString} {out : List Byte}
    (h : decodeBits t root cap e = .ok out) : out.length ≤ cap := by
  unfold decodeBits at h
  split at h
  · exact decodeSingle_length (Nat.zero_le _) h
  · exact decodeWalk_length (Nat.zero_le _) h

/-- PACK's artifact fits the output buffer: `EBUF_CAP = 8*OBUF_CAP - 9` (R8, R214). -/
theorem packBits_fits {s : State} (h : Inv s) : (packBits s.ebuf).length ≤ s.cfg.obufCap := by
  have he := h.elen_le
  have hc := s.cfg.obufCap_ge
  simp only [State.elen, Config.ebufCap] at he
  rw [packBits_length]
  omega

theorem inv_faultLeaves {s : State} (h : Inv s) (i : Instr) : Inv (faultLeaves s i) := by
  unfold faultLeaves
  split
  · exact inv_dropTable h
  · exact inv_setEbuf h (Nat.zero_le _)
  · exact inv_setEbuf h (Nat.zero_le _)
  · exact inv_setObuf h (Nat.zero_le _)
  · exact h

theorem inv_writes {s u : State} {i : Instr} (h : Inv s) (hw : Writes s i u) : Inv u := by
  cases hw with
  | nop => exact h
  | read _ => exact h
  | reset => exact inv_hardReset s
  | clrerr => exact { h with finfo_zero := fun _ => rfl }
  | clrtree => exact inv_changeTree h _ _ _
  | ldleaf _ => exact inv_changeTree h _ _ _
  | ldint _ _ _ => exact inv_changeTree h _ _ _
  | setroot _ => exact inv_changeTree h _ _ _
  | gentab hg => exact inv_of_generate (s := s.installTable _) h.ilen_le h.elen_le h.olen_le h.pad_le h.finfo_zero hg
  | clrin => exact inv_setIbuf h (Nat.zero_le _)
  | putb hn =>
    have hi := Nat.lt_of_le_of_ne h.ilen_le hn
    exact inv_setIbuf h (by rwa [List.length_append])
  | clre => exact inv_setEbuf h (Nat.zero_le _)
  | puteb hn =>
    have he := Nat.lt_of_le_of_ne h.elen_le hn
    exact inv_setEbuf h (by rwa [List.length_append])
  | encsym hf => exact inv_setEbuf h (by rwa [List.length_append])
  | encode he => exact inv_setEbuf h (encodeFrom_ok (Nat.zero_le _) he).2.2
  | pack =>
    have hp := (padByte_toNat s.elen).trans_le (padCount_bounds s.elen).2
    exact inv_setEbuf (inv_setPad (inv_setObuf h (packBits_fits h)) hp) (Nat.zero_le _)
  | unpack _ hp hf => exact inv_setPad (inv_setEbuf h ((unpackBits_length _ _).trans_le hf)) hp
  | decodeNothing => exact inv_setObuf h (Nat.zero_le _)
  | decode hd => exact inv_setObuf h (decodeBits_length hd)

/-- Every command keeps the invariant, completing or faulting. -/
theorem exec_keeps_inv {i : Instr} {s t : State} (h : Inv s) (he : exec i s = .next t) : Inv t := by
  rcases exec_cases he with ⟨e, rfl⟩ | ⟨u, v, hw, rfl⟩
  · exact inv_raise (inv_faultLeaves h i) e
  · exact inv_complete (inv_writes h hw) v

/-- Taking an event from the host is no change of HBP (R32). -/
theorem inv_setInbox {s : State} (h : Inv s) (events : List HostEvent) : Inv { s with inbox := events } := { h with }

/-- Settles O45: a step is nothing, a hardware reset, a command or an illegal word, and each keeps the invariant. -/
theorem stepKeepsTheInvariant : Obligations.StepKeepsTheInvariant := by
  intro s t h hs
  cases hb : s.inbox with
  | nil =>
    simp only [step, nextEvent_nil s hb, Host.Outcome.next.injEq] at hs
    exact hs ▸ h
  | cons ev rest =>
    have h' := inv_setInbox h rest
    simp only [step, nextEvent_cons s ev rest hb] at hs
    cases ev with
    | hardwareReset =>
      cases hs
      exact inv_hardReset _
    | command w =>
      cases hd : decode w with
      | ok i => exact exec_keeps_inv h' (by simpa only [hd] using hs)
      | error _ =>
        simp only [hd, Host.Outcome.next.injEq] at hs
        exact hs ▸ inv_raise h' _

/-- Settles O44: the reset state has no table and everything in it is 0 or empty. -/
theorem resetHasTheInvariant : Obligations.ResetHasTheInvariant := inv_resetWith

/-- Every component of the reset state is as R34 says, at any capacities. -/
theorem atReset_resetWith (c : Config) : AtReset (State.resetWith c) :=
  { tree := nodeAt_noNodes, root := rfl, rootv := rfl, ctab := fun sym => by simp, ctabv := rfl, ilen := rfl, elen := rfl,
    olen := rfl, pad := rfl, err := rfl, finfo := rfl }

/-- Settles O8: R34's values hold at any capacities, and `State.reset` carries the default ones. -/
theorem resetStateHoldsTheSpecsValues : Obligations.ResetStateHoldsTheSpecsValues :=
  ⟨atReset_resetWith _, rfl, rfl⟩

end Sys2Proof.Machine
end

section
/-! The access matrix R33, the flags of R25, and the independence statements of R28, R32, R23 and R144: what a command
writes is read off `exec_cases`; that its answer depends on nothing else is `exec_agrees`, which compares two runs of
one command. -/

namespace Sys2Proof.Machine

open Sys2Proof.Safety

/-! ## What a command writes -/

theorem forall_component {P : Component → Prop} :
    (∀ c, P c) ↔ P .tree ∧ P .root ∧ P .ctab ∧ P .ctabv ∧ P .input ∧ P .encoded ∧ P .output ∧ P .pad ∧ P .record :=
  ⟨fun h => ⟨h _, h _, h _, h _, h _, h _, h _, h _, h _⟩, fun ⟨_, _, _, _, _, _, _, _, _⟩ c => by
    cases c <;> assumption⟩

@[simp] theorem sameIn_refl (s : State) (c : Component) : SameIn s s c := by cases c <;> simp [SameIn]

/-- Answering changes no component (R96). -/
@[simp] theorem sameIn_complete (s u : State) (v : Nat) (c : Component) :
    SameIn s (u.complete v) c ↔ SameIn s u c := by cases c <;> rfl

@[simp] theorem sameIn_complete_left (u s : State) (v : Nat) (c : Component) :
    SameIn (u.complete v) s c ↔ SameIn u s c := by cases c <;> rfl

/-- Fault entry changes the record alone (R300). -/
theorem sameIn_raise {s u : State} (e : Raised) {c : Component} (hc : c ≠ .record) :
    SameIn s (u.raise e) c ↔ SameIn s u c := by
  cases c with
  | record => exact absurd rfl hc
  | _ => rfl

/-- From `s` to `u` only the listed components have changed, and neither the capacities nor the host's events. -/
def WritesOnly (cs : List Component) (s u : State) : Prop :=
  u.cfg = s.cfg ∧ u.inbox = s.inbox ∧ ∀ c, c ∉ cs → SameIn s u c

theorem writes_only {i : Instr} {s u : State} (h : Writes s i u) : WritesOnly (mayWrite i) s u := by
  cases h <;> simp [WritesOnly, forall_component, SameIn, mayWrite]

/-- What a command leaves when it faults lies within its row of the matrix too (R301). -/
theorem faultLeaves_only (i : Instr) (s : State) : WritesOnly (mayWrite i) s (faultLeaves s i) := by
  unfold faultLeaves
  split <;> simp [WritesOnly, forall_component, SameIn, mayWrite]

/-- Settles O46: a completing command writes what `Writes` says, a faulting one what R301 lists and the record. -/
theorem commandsWriteOnlyTheirComponents : Obligations.CommandsWriteOnlyTheirComponents := by
  intro i s t h
  rcases exec_cases h with ⟨e, rfl⟩ | ⟨u, v, hw, rfl⟩
  · obtain ⟨hc, hi, hs⟩ := faultLeaves_only i s
    exact ⟨hc, hi, fun c hr hm => (sameIn_raise e hr).2 (hs c hm), fun hd => absurd hd (not_completed_raise _ _)⟩
  · obtain ⟨hc, hi, hs⟩ := writes_only hw
    exact ⟨hc, hi, fun c _ hm => (sameIn_complete ..).2 (hs c hm), fun _ hm => (sameIn_complete ..).2 (hs _ hm)⟩

/-! ## The flags and `PAD` -/

theorem faultLeaves_rootv (s : State) (i : Instr) : (faultLeaves s i).rootv = s.rootv := by
  unfold faultLeaves
  split <;> rfl

theorem faultLeaves_pad (s : State) (i : Instr) : (faultLeaves s i).pad = s.pad := by
  unfold faultLeaves
  split <;> rfl

theorem faultLeaves_ctabv (s : State) {i : Instr} (hi : i ≠ .gentab) : (faultLeaves s i).ctabv = s.ctabv := by
  unfold faultLeaves
  split
  · exact absurd rfl hi
  all_goals rfl

/-- CLRTREE and RESET clear both flags, and cannot fault (R25). -/
theorem exec_clears_flags {i : Instr} {s t : State} (h : exec i s = .next t) (hi : i = .clrtree ∨ i = .reset) :
    t.rootv = false ∧ t.ctabv = false := by
  rcases hi with rfl | rfl <;> cases h <;> exact ⟨rfl, rfl⟩

/-- Settles O52: of the faulting commands only GENTAB touches a flag, of the completing ones those that `Writes` says. -/
theorem flagsChangeOnlyByTheirCommands : Obligations.FlagsChangeOnlyByTheirCommands := by
  intro i s t h
  have hclear := exec_clears_flags h
  rcases exec_cases h with ⟨e, rfl⟩ | ⟨u, v, hw, rfl⟩
  · have hn := not_completed_raise (faultLeaves s i) e
    refine ⟨.inl (faultLeaves_rootv s i), ?_, ?_, fun _ _ hd => absurd hd hn, hclear⟩
    · by_cases hi : i = .gentab
      · subst hi
        exact .inr (.inr ⟨rfl, .inl rfl⟩)
      · exact .inl (faultLeaves_ctabv s hi)
    · rintro rfl
      exact iff_of_false Bool.false_ne_true hn
  · have hd := completed_complete u v
    cases hw with
    | read hr =>
      refine ⟨.inl rfl, .inl rfl, ?_, ?_, hclear⟩
      · rintro rfl; cases hr
      · rintro _ rfl; cases hr
    | _ => simp [hd]

/-- What a completing command leaves in `PAD` (R23). -/
theorem writes_pad {i : Instr} {s u : State} (h : Writes s i u) :
    (i = .reset ∧ u.pad = 0) ∨ ((i = .pack ∨ i = .unpack) ∧ 1 ≤ u.pad.toNat ∧ u.pad.toNat ≤ 8) ∨
    (u.pad = s.pad ∧ ¬ (i = .pack ∨ i = .unpack) ∧ i ≠ .reset) := by
  cases h with
  | reset => exact .inl ⟨rfl, rfl⟩
  | pack => exact .inr (.inl ⟨.inl rfl, by simpa only [padByte_toNat] using padCount_bounds s.elen⟩)
  | unpack h1 h8 _ => exact .inr (.inl ⟨.inr rfl, h1, h8⟩)
  | read hr =>
    refine .inr (.inr ⟨rfl, ?_, ?_⟩)
    · rintro (rfl | rfl) <;> cases hr
    · rintro rfl; cases hr
  | _ => exact .inr (.inr ⟨rfl, by simp, by simp⟩)

/-! ## Two runs of one command -/

/-- The components that decide how a command ends and what it writes: the `R` entries of the access matrix R33, with
the buffer whose room PUTB, PUTEB and ENCSYM test, and the record that RDSTAT and RDFINFO show. -/
def dependsOn : Instr → List Component
  | .rdstat => [.root, .ctabv, .record]
  | .rdfinfo => [.record]
  | .rdnode _ => [.tree]
  | .gentab => [.tree, .root]
  | .rdlen _ => [.ctab, .ctabv]
  | .rdcbit _ _ => [.ctab, .ctabv]
  | .putb _ => [.input]
  | .rdilen => [.input]
  | .puteb _ => [.encoded]
  | .encsym _ => [.ctab, .ctabv, .encoded]
  | .encode => [.ctab, .ctabv, .input]
  | .rdelen => [.encoded]
  | .rdebit _ => [.encoded]
  | .pack => [.encoded]
  | .rdpad => [.pad]
  | .unpack => [.input]
  | .decode => [.tree, .root, .ctabv, .encoded]
  | .rdolen => [.output]
  | .rdob _ => [.output]
  | _ => []

/-- The whole output of each data command: written anew however the command ends (R144, R301). -/
def overwrites : Instr → List Component
  | .gentab => [.ctab, .ctabv]
  | .encode => [.encoded]
  | .pack => [.output, .pad]
  | .unpack => [.encoded]
  | .decode => [.output]
  | _ => []

/-- Two runs from `s` and `s'` that have led to `u` and `u'` agree on all on which they agreed at the start, and on
the components `out`. -/
def KeepsAgreement (out : List Component) (s s' u u' : State) : Prop :=
  ∀ c, SameIn s s' c ∨ c ∈ out → SameIn u u' c

/-- Two results with the same answer, completion or fault, and states that agree as `KeepsAgreement` says. -/
inductive Agrees (out : List Component) (s s' : State) : Result → Result → Prop where
  | completes {u u' : State} (v : Nat)
      (h : KeepsAgreement out s s' u u' := by simp +contextual [KeepsAgreement, forall_component, SameIn, overwrites]) :
      Agrees out s s' (.next (u.complete v)) (.next (u'.complete v))
  | faults {u u' : State} (e : Raised)
      (h : KeepsAgreement out s s' u u' := by simp +contextual [KeepsAgreement, forall_component, SameIn, overwrites]) :
      Agrees out s s' (.next (u.raise e)) (.next (u'.raise e))

/-- A command that depends on the same contents in two states ends in the same way from both. -/
theorem exec_agrees {i : Instr} {s s' : State} (hcfg : s'.cfg = s.cfg) (hd : ∀ c ∈ dependsOn i, SameIn s s' c) :
    Agrees (overwrites i) s s' (exec i s) (exec i s') := by
  cases i <;>
    simp only [dependsOn, SameIn, List.forall_mem_cons, List.not_mem_nil, false_imp_iff, implies_true, and_true] at hd
  case nop => exact .completes _
  case reset => exact .completes _
  case clrerr => exact .completes _
  case rdstat =>
    obtain ⟨⟨-, hr⟩, hv, he, -⟩ := hd
    simp only [exec, execRdstat, State.statusWord, hr, hv, he]
    exact .completes _
  case rdfinfo =>
    simp only [exec, execRdfinfo, hd.2]
    exact .completes _
  case clrtree => exact .completes _
  case ldleaf idx sym =>
    simp only [exec, execLdleaf]
    split
    · exact .faults _
    · exact .completes _
  case ldint idx left right =>
    simp only [exec, execLdint]
    split
    · exact .faults _
    · split
      · exact .faults _
      · split
        · exact .faults _
        · exact .completes _
  case setroot idx =>
    simp only [exec, execSetroot]
    split
    · exact .faults _
    · exact .completes _
  case rdnode idx =>
    simp only [exec, execRdnode, hd]
    split
    · exact .faults _
    · exact .completes _
  case gentab =>
    obtain ⟨ht, hr, hv⟩ := hd
    simp only [exec, execGentab, ht, hr, hv]
    split
    · exact .faults _
    · exact .completes _
  case rdlen sym =>
    obtain ⟨ht, hv⟩ := hd
    simp only [exec, execRdlen, ht, hv]
    split
    · exact .faults _
    · exact .completes _
  case rdcbit pos sym =>
    obtain ⟨ht, hv⟩ := hd
    simp only [exec, execRdcbit, codeBit?, ht, hv]
    split
    · exact .faults _
    · split
      · exact .faults _
      · exact .completes _
  case clrin => exact .completes _
  case putb b =>
    simp only [exec, execPutb, State.ilen, hd, hcfg]
    split
    · exact .faults _
    · exact .completes _
  case rdilen =>
    simp only [exec, execRdilen, State.ilen, hd]
    exact .completes _
  case clre => exact .completes _
  case puteb b =>
    simp only [exec, execPuteb, State.elen, hd, hcfg]
    split
    · exact .faults _
    · exact .completes _
  case encsym sym =>
    obtain ⟨ht, hv, he⟩ := hd
    simp only [exec, execEncsym, State.elen, ht, hv, he, hcfg]
    split
    · exact .faults _
    · split
      · exact .faults _
      · split
        · exact .faults _
        · exact .completes _
  case encode =>
    obtain ⟨ht, hv, hi⟩ := hd
    simp only [exec, execEncode, ht, hv, hi, hcfg]
    split
    · exact .faults _
    · split
      · exact .faults _
      · exact .completes _
  case rdelen =>
    simp only [exec, execRdelen, State.elen, hd]
    exact .completes _
  case rdebit index =>
    simp only [exec, execRdebit, ebufBit?, hd]
    split
    · exact .faults _
    · exact .completes _
  case pack =>
    simp only [exec, execPack_eq, State.elen, hd]
    exact .completes _
  case rdpad =>
    simp only [exec, execRdpad, hd]
    exact .completes _
  case unpack =>
    simp only [exec, execUnpack, State.ilen, hd, hcfg]
    split
    · exact .faults _
    · split
      · exact .faults _
      · split
        · exact .faults _
        · exact .completes _
  case decode =>
    obtain ⟨ht, hr, hv, he⟩ := hd
    simp only [exec, execDecode, State.elen, ht, hr, hv, he, hcfg]
    split
    · exact .faults _
    · split
      · exact .completes _
      · split
        · exact .faults _
        · split
          · exact .faults _
          · exact .completes _
  case rdolen =>
    simp only [exec, execRdolen, State.olen, hd]
    exact .completes _
  case rdob index =>
    simp only [exec, execRdob, obufByte?, hd]
    split
    · exact .faults _
    · exact .completes _

/-- The same fault entered in states that agree on a component leaves them agreeing on it: the record, too, is written
in both or in neither (R302). -/
theorem sameIn_raise_raise {u u' : State} (e : Raised) {c : Component} (h : SameIn u u' c) :
    SameIn (u.raise e) (u'.raise e) c := by
  cases c with
  | record => obtain ⟨he, hf⟩ := h; simp [SameIn, he, hf]
  | _ => exact h

/-- Two runs of a command from states with the same contents in all it depends on: the same answer, and the same
contents in what it overwrites and in all that was the same before. -/
theorem exec_agreement {i : Instr} {s s' t t' : State} (h : exec i s = .next t) (h' : exec i s' = .next t')
    (hcfg : s'.cfg = s.cfg) (hd : ∀ c ∈ dependsOn i, SameIn s s' c) :
    t'.rsp = t.rsp ∧ KeepsAgreement (overwrites i) s s' t t' := by
  have ha := exec_agrees hcfg hd
  rw [h, h'] at ha
  cases ha with
  | completes v hk =>
    refine ⟨rfl, fun c hc => ?_⟩
    rw [sameIn_complete_left, sameIn_complete]
    exact hk c hc
  | faults e hk => exact ⟨rfl, fun c hc => sameIn_raise_raise e (hk c hc)⟩

/-- The components, the capacities and the model's own two fields are the whole state (R20). -/
theorem eq_of_sameIn {s t : State} (hcfg : t.cfg = s.cfg) (hin : t.inbox = s.inbox) (hrsp : t.rsp = s.rsp)
    (h : ∀ c, SameIn s t c) : t = s := by
  simp only [forall_component, SameIn] at h
  cases s
  cases t
  simp_all

/-- Only RDSTAT and RDFINFO depend on the record. -/
theorem record_not_mem_dependsOn {i : Instr} (h1 : i ≠ .rdstat) (h2 : i ≠ .rdfinfo) : .record ∉ dependsOn i := by
  cases i <;> simp_all [dependsOn]

/-- Only RDPAD depends on `PAD`. -/
theorem pad_not_mem_dependsOn {i : Instr} (h : i ≠ .rdpad) : .pad ∉ dependsOn i := by
  cases i <;> simp_all [dependsOn]

/-- A command run again after a change in one component on which it does not depend leaves all else the same. -/
theorem exec_rerun {i : Instr} {s t s' : State} {changed : Component} (h : exec i s = .next t)
    (hn : changed ∉ dependsOn i) (hs : ∀ c, c ≠ changed → SameIn s s' c) (hcfg : s'.cfg = s.cfg)
    (hin : s'.inbox = s.inbox) :
    ∃ t', exec i s' = .next t' ∧ t'.cfg = t.cfg ∧ t'.inbox = t.inbox ∧ t'.rsp = t.rsp ∧
      ∀ c, c ≠ changed → SameIn t t' c := by
  obtain ⟨t', h'⟩ := exec_next i s'
  obtain ⟨hrsp, hk⟩ := exec_agreement h h' hcfg fun c hc => hs c (ne_of_mem_of_not_mem hc hn)
  obtain ⟨htc, hti, -, -⟩ := commandsWriteOnlyTheirComponents i s t h
  obtain ⟨htc', hti', -, -⟩ := commandsWriteOnlyTheirComponents i s' t' h'
  exact ⟨t', h', by rw [htc', hcfg, htc], by rw [hti', hin, hti], hrsp, fun c hc => hk c (.inl (hs c hc))⟩

/-- Settles O50: the run from the changed record agrees with the first on all but the record. -/
theorem behaviourIgnoresTheFaultRecord : Obligations.BehaviourIgnoresTheFaultRecord := by
  intro i s t e f h1 h2 h
  have hs : ∀ c, c ≠ .record → SameIn s { s with err := e, finfo := f } c := by
    simp [forall_component, SameIn]
  obtain ⟨t', h', hcfg, hin, hrsp, hk⟩ := exec_rerun h (record_not_mem_dependsOn h1 h2) hs rfl rfl
  refine ⟨t'.err, t'.finfo, h'.trans (congrArg _ (eq_of_sameIn hcfg hin hrsp fun c => ?_))⟩
  have hc := hk c
  cases c with
  | record => exact ⟨rfl, rfl⟩
  | _ => exact hc (by decide)

/-- No command but RDPAD depends on `PAD` (R23, R215). -/
theorem exec_ignores_pad {i : Instr} {s t : State} (p : Byte) (hi : i ≠ .rdpad) (h : exec i s = .next t) :
    ∃ p', exec i { s with pad := p } = .next { t with pad := p' } := by
  have hs : ∀ c, c ≠ .pad → SameIn s { s with pad := p } c := by
    simp [forall_component, SameIn]
  obtain ⟨t', h', hcfg, hin, hrsp, hk⟩ := exec_rerun h (pad_not_mem_dependsOn hi) hs rfl rfl
  refine ⟨t'.pad, h'.trans (congrArg _ (eq_of_sameIn hcfg hin hrsp fun c => ?_))⟩
  have hc := hk c
  cases c with
  | pad => rfl
  | _ => exact hc (by decide)

/-- Settles O51: no component has changed, so the second run leaves the same in all of them. -/
theorem noCommandDependsOnHiddenState : Obligations.NoCommandDependsOnHiddenState := by
  intro i s t events r h
  have hs : ∀ c, SameIn s { s with inbox := events, rsp := r } c := by
    simp [forall_component, SameIn]
  obtain ⟨t', h'⟩ := exec_next i { s with inbox := events, rsp := r }
  obtain ⟨hrsp, hk⟩ := exec_agreement h h' rfl fun c _ => hs c
  obtain ⟨htc, -, -, -⟩ := commandsWriteOnlyTheirComponents i s t h
  obtain ⟨htc', hti', -, -⟩ := commandsWriteOnlyTheirComponents i _ t' h'
  refine h'.trans (congrArg _ (eq_of_sameIn (htc'.trans htc.symm) hti' hrsp fun c => ?_))
  have hc := hk c (.inl (hs c))
  cases c <;> exact hc

/-- What UNPACK leaves in `PAD` when it completes is the header (R232). -/
theorem execUnpack_pad {s t : State} (h : exec .unpack s = .next t) (hd : Completed t) : t.pad = s.ibuf.getD 0 0 := by
  rcases exec_cases h with ⟨e, rfl⟩ | ⟨u, v, hw, rfl⟩
  · exact absurd hd (not_completed_raise _ _)
  · cases hw with
    | read hr => cases hr
    | unpack _ _ _ => rfl

/-- RESET never faults (R261). -/
theorem execReset_completed {s t : State} (h : exec .reset s = .next t) : Completed t := by
  cases h
  exact completed_complete _ _

/-- Settles O54: faults leave `PAD` alone, and `writes_pad` says what completed commands do to it. -/
theorem padRecordsThePaddingCount : Obligations.PadRecordsThePaddingCount := by
  refine ⟨by decide, fun s => congrArg _ (complete_eq_completed s _), fun i s t h => ?_, fun s t h => ?_,
    fun s t => execUnpack_pad, fun i s t p => exec_ignores_pad p⟩
  · rcases exec_cases h with ⟨e, rfl⟩ | ⟨u, v, hw, rfl⟩
    · have hn := not_completed_raise (faultLeaves s i) e
      exact .inr (.inr ⟨faultLeaves_pad s i, fun _ => hn, by rintro rfl; exact hn (execReset_completed h)⟩)
    · rcases writes_pad hw with hr | ⟨hp, hb⟩ | ⟨hp, hn, hr⟩
      · exact .inl hr
      · exact .inr (.inl ⟨hp, completed_complete u v, hb⟩)
      · exact .inr (.inr ⟨hp, fun hi => absurd hi hn, hr⟩)
  · rw [exec, execPack_eq] at h
    cases h
    exact padByte_toNat s.elen

/-- Settles O55: what the statement assumes equal is all that each data command depends on, and what it compares is
overwritten. -/
theorem dataCommandsDependOnlyOnTheirInputs : Obligations.DataCommandsDependOnlyOnTheirInputs := by
  intro s1 s2 t1 t2 hcfg
  refine ⟨fun ht hr hv h1 h2 => ?gentab, fun hc hv hi h1 h2 => ?encode, fun he h1 h2 => ?pack, fun hi h1 h2 => ?unpack,
    fun ht hr hrv hv he h1 h2 => ?decode⟩
  case gentab =>
    obtain ⟨hrsp, hk⟩ := exec_agreement h2 h1 hcfg (by simp [dependsOn, SameIn, ht, hr, hv])
    exact ⟨hrsp, hk .ctab (.inr (by decide)), hk .ctabv (.inr (by decide))⟩
  case encode =>
    obtain ⟨hrsp, hk⟩ := exec_agreement h2 h1 hcfg (by simp [dependsOn, SameIn, hc, hv, hi])
    exact ⟨hrsp, hk .encoded (.inr (by decide))⟩
  case pack =>
    obtain ⟨hrsp, hk⟩ := exec_agreement h2 h1 hcfg (by simp [dependsOn, SameIn, he])
    exact ⟨hrsp, hk .output (.inr (by decide)), hk .pad (.inr (by decide))⟩
  case unpack =>
    obtain ⟨hrsp, hk⟩ := exec_agreement h2 h1 hcfg (by simp [dependsOn, SameIn, hi])
    exact ⟨hrsp, hk .encoded (.inr (by decide))⟩
  case decode =>
    obtain ⟨hrsp, hk⟩ := exec_agreement h2 h1 hcfg (by simp [dependsOn, SameIn, ht, hr, hrv, hv, he])
    exact ⟨hrsp, hk .output (.inr (by decide))⟩

end Sys2Proof.Machine
end

section
/-! Side effects of the reads (R67) and the validity of the code table (R25, R71). Both are read off `exec_cases`: a read
writes nothing before its answer or its fault, and of the completing commands only those that also clear `CTABV` change
the tree or its root. -/

namespace Sys2Proof.Machine

open Sys2Proof.Safety

/-! ## Reads -/

theorem writes_read {i : Instr} {s u : State} (hi : isRead i = true) (h : Writes s i u) : u = s := by
  cases h with
  | read _ => rfl
  | nop => rfl
  | _ => cases hi

theorem faultLeaves_read {i : Instr} (hi : isRead i = true) (s : State) : faultLeaves s i = s := by
  cases i with
  | gentab => cases hi
  | encode => cases hi
  | unpack => cases hi
  | decode => cases hi
  | _ => rfl

/-- The commands that show the record cannot fault (R263, R264). -/
theorem exec_completed_of_shows_record {i : Instr} {s t : State} (hi : .record ∈ dependsOn i) (h : exec i s = .next t) :
    Completed t := by
  have hr : i = .rdstat ∨ i = .rdfinfo := by
    by_contra hn
    exact record_not_mem_dependsOn (fun h1 => hn (.inl h1)) (fun h2 => hn (.inr h2)) hi
  rcases hr with rfl | rfl <;> cases h <;> exact completed_complete _ _

/-- A read leaves all that decides its own answer: a fault of its own changes the record alone, and the reads that show
the record do not fault. -/
theorem read_keeps_dependsOn {i : Instr} {s t : State} (hi : isRead i = true) (h : exec i s = .next t) :
    ∀ c ∈ dependsOn i, SameIn s t c := by
  intro c hc
  rcases exec_cases h with ⟨e, rfl⟩ | ⟨u, v, hw, rfl⟩
  · have hr : c ≠ .record := by
      rintro rfl
      exact not_completed_raise _ e (exec_completed_of_shows_record hc h)
    rw [sameIn_raise e hr, faultLeaves_read hi]
    exact sameIn_refl s c
  · rw [sameIn_complete, writes_read hi hw]
    exact sameIn_refl s c

/-- Settles O47: a read has written nothing when it ends, so a second run finds all it depends on unchanged. -/
theorem readsHaveNoSideEffect : Obligations.ReadsHaveNoSideEffect := by
  intro i s t hi h
  have hagain : ∀ u, exec i t = .next u → u.rsp = t.rsp := fun u hu =>
    have hcfg := (commandsWriteOnlyTheirComponents i s t h).1
    (exec_agreement h hu hcfg (read_keeps_dependsOn hi h)).1
  rcases exec_cases h with ⟨e, rfl⟩ | ⟨u, v, hw, rfl⟩
  · have hn := not_completed_raise (faultLeaves s i) e
    refine ⟨?_, fun hd => absurd hd hn, hagain⟩
    rw [faultLeaves_read hi]
    rfl
  · obtain rfl := writes_read hi hw
    exact ⟨rfl, fun _ => rfl, hagain⟩

/-! ## The validity of the table -/

theorem faultLeaves_codebook (s : State) (i : Instr) :
    (faultLeaves s i).tree = s.tree ∧ (faultLeaves s i).root = s.root ∧ (faultLeaves s i).rootv = s.rootv := by
  unfold faultLeaves
  split <;> exact ⟨rfl, rfl, rfl⟩

/-- A completing command leaves the codebook alone, or no valid table (R71). -/
theorem writes_codebook {i : Instr} {s u : State} (h : Writes s i u) :
    u.ctabv = false ∨ u.tree = s.tree ∧ u.root = s.root ∧ u.rootv = s.rootv := by
  cases h with
  | reset => exact .inl rfl
  | clrtree => exact .inl rfl
  | ldleaf _ => exact .inl rfl
  | ldint _ _ _ => exact .inl rfl
  | setroot _ => exact .inl rfl
  | _ => exact .inr ⟨rfl, rfl, rfl⟩

/-- Every command leaves the codebook alone, or no valid table (R71). -/
theorem exec_codebook {i : Instr} {s t : State} (h : exec i s = .next t) :
    t.ctabv = false ∨ t.tree = s.tree ∧ t.root = s.root ∧ t.rootv = s.rootv := by
  rcases exec_cases h with ⟨e, rfl⟩ | ⟨u, v, hw, rfl⟩
  · exact .inr (faultLeaves_codebook s i)
  · exact writes_codebook (u := u) hw

/-- The `W` entries of the column `CTAB` (R33). -/
theorem ctab_mem_mayWrite {i : Instr} (h : .ctab ∈ mayWrite i) : i = .gentab ∨ i = .reset := by
  cases i with
  | gentab => exact .inl rfl
  | reset => exact .inr rfl
  | _ => simp [mayWrite] at h

/-- The commands on the tree and its root clear `CTABV` whatever they write (R25, R71). -/
theorem writes_invalidates {i : Instr} {s u : State} (h : Writes s i u)
    (hi : i = .clrtree ∨ (∃ n x, i = .ldleaf n x) ∨ (∃ n l r, i = .ldint n l r) ∨ ∃ n, i = .setroot n) :
    u.ctabv = false := by
  cases h with
  | clrtree => rfl
  | ldleaf _ => rfl
  | ldint _ _ _ => rfl
  | setroot _ => rfl
  | read hr => rcases hi with rfl | ⟨_, _, rfl⟩ | ⟨_, _, _, rfl⟩ | ⟨_, rfl⟩ <;> cases hr
  | _ => simp at hi

/-- Without a valid table its users raise `E_NOTAB` (R71). -/
theorem exec_without_table {i : Instr} {s : State} (hv : s.ctabv = false)
    (hi : (∃ x, i = .rdlen x) ∨ (∃ p x, i = .rdcbit p x) ∨ (∃ x, i = .encsym x) ∨ i = .encode ∨ i = .decode) :
    exec i s = .next ((faultLeaves s i).raise (raised .notab 0)) := by
  rcases hi with ⟨x, rfl⟩ | ⟨p, x, rfl⟩ | ⟨x, rfl⟩ | rfl | rfl <;> exact if_pos hv

/-- Settles O53: a changed codebook leaves no valid table, only GENTAB and RESET write one, and its users test `CTABV`
first. -/
theorem staleTablesAreNeverUsed : Obligations.StaleTablesAreNeverUsed := by
  intro i s t h
  refine ⟨fun hc => ?changed, fun hc => ?written, fun hs ht => ?validated, fun hd hi => ?invalidated, fun hs hi => ?unused⟩
  case changed =>
    rcases exec_codebook h with hv | ⟨htree, hroot, hrootv⟩
    · exact hv
    · exact absurd hc (by simp [htree, hroot, hrootv])
  case written =>
    obtain ⟨-, -, hw, -⟩ := commandsWriteOnlyTheirComponents i s t h
    exact ctab_mem_mayWrite (by_contra fun hm => hc (hw .ctab (by decide) hm))
  case validated =>
    obtain ⟨-, hflag, -⟩ := flagsChangeOnlyByTheirCommands i s t h
    rcases hflag with he | ⟨-, hg⟩ | ⟨hf, -⟩
    · exact absurd (he.symm.trans ht) (by simp [hs])
    · exact hg
    · exact absurd (hf.symm.trans ht) (by simp)
  case invalidated =>
    rcases exec_cases h with ⟨e, rfl⟩ | ⟨u, v, hw, rfl⟩
    · exact absurd hd (not_completed_raise _ _)
    · exact writes_invalidates (u := u) hw hi
  case unused =>
    rw [exec_without_table hs hi] at h
    cases h
    rw [raise_eq_faulted]
    rfl

end Sys2Proof.Machine
end

section
/-! The decoder, the encoder and the opcode table (R90 to R95). Of a word with a command's opcode the decoder answers
`readFrom`, that command with its operands read from the word, or rejects the word for its reserved bits
(`decode_of_opcode`). The round trip both ways, legality and the table's rows are read off that one equation. -/

namespace Sys2Proof

open Sys2Proof.Machine Sys2Proof.Safety

/-! ## Opcodes and operands -/

/-- How many low bits of `cmd` the format of an opcode names (R91, R94). -/
def namedBits : Nat → Nat
  | 6 => 17
  | 7 => 27
  | 8 => 9
  | 9 => 9
  | 11 => 8
  | 12 => 16
  | 14 => 8
  | 17 => 1
  | 18 => 8
  | 21 => 20
  | 27 => 20
  | _ => 0

/-- A command with its operands read from a word, at the places R91 gives them. -/
def readFrom (w : Word) : Instr → Instr
  | .ldleaf _ _ => .ldleaf (field w 8 9) (symField w)
  | .ldint _ _ _ => .ldint (field w 18 9) (field w 9 9) (field w 0 9)
  | .setroot _ => .setroot (field w 0 9)
  | .rdnode _ => .rdnode (field w 0 9)
  | .rdlen _ => .rdlen (symField w)
  | .rdcbit _ _ => .rdcbit (field w 8 8) (symField w)
  | .putb _ => .putb (symField w)
  | .puteb _ => .puteb (field w 0 1 == 1)
  | .encsym _ => .encsym (symField w)
  | .rdebit _ => .rdebit (field w 0 20)
  | .rdob _ => .rdob (field w 0 20)
  | i => i

theorem namedBits_le (k : Nat) : namedBits k ≤ 27 := by
  unfold namedBits
  split <;> decide

/-- A command of each opcode, in the order of R94. -/
def oneOfEachOpcode : List Instr :=
  [.nop, .reset, .clrerr, .rdstat, .rdfinfo, .clrtree, .ldleaf 0 0, .ldint 0 0 0, .setroot 0, .rdnode 0, .gentab, .rdlen 0,
   .rdcbit 0 0, .clrin, .putb 0, .rdilen, .clre, .puteb false, .encsym 0, .encode, .rdelen, .rdebit 0, .pack, .rdpad,
   .unpack, .decode, .rdolen, .rdob 0]

theorem oneOfEachOpcode_opcode : oneOfEachOpcode.map opcode = List.range 28 := by decide

theorem exists_opcode_eq {k : Nat} (hk : k < 28) : ∃ i, opcode i = k := by
  have hm : k ∈ oneOfEachOpcode.map opcode := oneOfEachOpcode_opcode ▸ List.mem_range.2 hk
  obtain ⟨i, -, hi⟩ := List.mem_map.1 hm
  exact ⟨i, hi⟩

/-- The operands of a well-formed command fit below its opcode (R90, R91). -/
theorem encoding_fits (i : Instr) : Laws.Encoding.Statement i := by
  cases i with
  | nop => exact Laws.Encoding.nop
  | reset => exact Laws.Encoding.reset
  | clrerr => exact Laws.Encoding.clrerr
  | rdstat => exact Laws.Encoding.rdstat
  | rdfinfo => exact Laws.Encoding.rdfinfo
  | clrtree => exact Laws.Encoding.clrtree
  | ldleaf idx sym => exact Laws.Encoding.ldleaf idx sym
  | ldint idx left right => exact Laws.Encoding.ldint idx left right
  | setroot idx => exact Laws.Encoding.setroot idx
  | rdnode idx => exact Laws.Encoding.rdnode idx
  | gentab => exact Laws.Encoding.gentab
  | rdlen sym => exact Laws.Encoding.rdlen sym
  | rdcbit pos sym => exact Laws.Encoding.rdcbit pos sym
  | clrin => exact Laws.Encoding.clrin
  | putb byte => exact Laws.Encoding.putb byte
  | rdilen => exact Laws.Encoding.rdilen
  | clre => exact Laws.Encoding.clre
  | puteb bit => exact Laws.Encoding.puteb bit
  | encsym sym => exact Laws.Encoding.encsym sym
  | encode => exact Laws.Encoding.encode
  | rdelen => exact Laws.Encoding.rdelen
  | rdebit index => exact Laws.Encoding.rdebit index
  | pack => exact Laws.Encoding.pack
  | rdpad => exact Laws.Encoding.rdpad
  | unpack => exact Laws.Encoding.unpack
  | decode => exact Laws.Encoding.decode
  | rdolen => exact Laws.Encoding.rdolen
  | rdob index => exact Laws.Encoding.rdob index

/-! ## Reading a word -/

/-- What the decoder does with a word that has a command's opcode (R91, R93). -/
theorem decode_of_opcode {w : Word} {i : Instr} (h : field w 27 5 = opcode i) :
    decode w = withReserved w (namedBits (opcode i)) (readFrom w i) := by
  unfold decode
  rw [h]
  cases i <;> rfl

/-- Opcodes 28 to 31 name no command (R95). -/
theorem decode_reserved_opcode {w : Word} (h : 28 ≤ field w 27 5) : decode w = .error .reservedOpcode := by
  have hlt : field w 27 5 < 32 := field_lt w 27 5
  unfold decode
  generalize field w 27 5 = k at h hlt
  interval_cases k <;> rfl

theorem symField_toNat (w : Word) : (symField w).toNat = field w 0 8 := by
  simp [symField, field]

theorem opcode_readFrom (w : Word) (i : Instr) : opcode (readFrom w i) = opcode i := by
  cases i <;> rfl

theorem readFrom_wellFormed (w : Word) (i : Instr) : (readFrom w i).wellFormed = true := by
  cases i <;> simp [readFrom, Instr.wellFormed, idxFits, posFits, indexFits, field, Nat.mod_lt]

theorem operandBits_readFrom (w : Word) (i : Instr) :
    operandBits (readFrom w i) = field w 0 (namedBits (opcode i)) := by
  cases i with
  | ldleaf _ _ => simp only [readFrom, operandBits, opcode, namedBits, symField_toNat, field]; omega
  | ldint _ _ _ => simp only [readFrom, operandBits, opcode, namedBits, field]; omega
  | rdcbit _ _ => simp only [readFrom, operandBits, opcode, namedBits, symField_toNat, field]; omega
  | puteb _ =>
    rcases Nat.mod_two_eq_zero_or_one w.toNat with h | h <;> simp [readFrom, operandBits, opcode, namedBits, field, h]
  | _ => simp [readFrom, operandBits, opcode, namedBits, symField_toNat, field, Nat.mod_one]

/-- The operand bits are those the format names and, above them, the reserved ones (R91). -/
theorem field_split (w : Word) {u : Nat} (hu : u ≤ 27) :
    field w 0 27 = field w 0 u + 2 ^ u * field w u (27 - u) := by
  have hp : 2 ^ 27 = 2 ^ u * 2 ^ (27 - u) := by rw [← Nat.pow_add, Nat.add_sub_cancel' hu]
  simp only [field, Nat.pow_zero, Nat.div_one]
  rw [hp, Nat.mod_mul]

theorem reserved_eq_zero_iff (w : Word) (k : Nat) :
    field w (namedBits k) (27 - namedBits k) = 0 ↔ field w 0 27 = field w 0 (namedBits k) := by
  simp [field_split w (namedBits_le k)]

/-- A word is legal when its opcode is a command's and its reserved bits are 0 (R93, R95). -/
theorem decode_legal_iff (w : Word) :
    (∃ i, decode w = .ok i) ↔
      field w 27 5 < 28 ∧ field w (namedBits (field w 27 5)) (27 - namedBits (field w 27 5)) = 0 := by
  by_cases hk : field w 27 5 < 28
  · obtain ⟨i, hi⟩ := exists_opcode_eq hk
    simp only [decode_of_opcode hi.symm, withReserved_ok, hi, hk, true_and]
    exact ⟨fun ⟨_, h, _⟩ => h, fun h => ⟨_, h, rfl⟩⟩
  · simp [decode_reserved_opcode (Nat.le_of_not_lt hk), hk]

/-! ## The round trip -/

/-- A word that decodes is the word of the command it decodes to (R91, R93). -/
theorem encode_of_decode_ok {w : Word} {i : Instr} (h : decode w = .ok i) : i.wellFormed = true ∧ encode i = w := by
  obtain ⟨hk, hz⟩ := (decode_legal_iff w).1 ⟨i, h⟩
  obtain ⟨j, hj⟩ := exists_opcode_eq hk
  rw [decode_of_opcode hj.symm, withReserved_ok] at h
  obtain ⟨-, rfl⟩ := h
  have hwf := readFrom_wellFormed w j
  obtain ⟨ho, hb⟩ := encoding_fits _ hwf
  refine ⟨hwf, BitVec.eq_of_toNat_eq ?_⟩
  rw [encode_toNat ho hb, opcode_readFrom, operandBits_readFrom, hj, ← (reserved_eq_zero_iff w _).1 hz, ← word_split]

theorem opcode_of_decode_ok {w : Word} {i : Instr} (h : decode w = .ok i) : opcode i = field w 27 5 := by
  obtain ⟨hwf, rfl⟩ := encode_of_decode_ok h
  obtain ⟨ho, hb⟩ := encoding_fits i hwf
  exact (field_encode_opcode ho hb).symm

section
variable {i : Instr} (h : i.wellFormed = true)
include h

/-- A field of the operand bits of an encoded command (R91). -/
theorem field_encode_operands {lo len : Nat} (hl : lo + len ≤ 27) :
    field (encode i) lo len = operandBits i / 2 ^ lo % 2 ^ len := by
  obtain ⟨ho, hb⟩ := encoding_fits i h
  have hp : opcode i * 2 ^ 27 = 2 ^ lo * (2 ^ len * (2 ^ (27 - (lo + len)) * opcode i)) := by
    rw [← Nat.mul_assoc, ← Nat.mul_assoc, ← Nat.pow_add, ← Nat.pow_add, Nat.add_sub_cancel' hl, Nat.mul_comm]
  rw [field_encode ho hb, hp, Nat.mul_add_div (Nat.two_pow_pos lo), Nat.mul_add_mod]

theorem symField_encode {sym : Byte} (hs : operandBits i % 2 ^ 8 = sym.toNat) : symField (encode i) = sym := by
  apply BitVec.eq_of_toNat_eq
  rw [symField_toNat, field_encode_operands h (by decide), Nat.pow_zero, Nat.div_one, hs]

/-- The only operand of formats N and X (R91). -/
theorem field_encode_only_operand {n len : Nat} (hn : operandBits i = n) (hl : len ≤ 27) (hlt : n < 2 ^ len) :
    field (encode i) 0 len = n := by
  rw [field_encode_operands h (by omega), hn, Nat.pow_zero, Nat.div_one, Nat.mod_eq_of_lt hlt]

/-- The operands of an encoded command, read back (R91, R92). -/
theorem readFrom_encode : readFrom (encode i) i = i := by
  cases i with
  | ldleaf idx sym =>
    have hi : idx < 2 ^ 9 := of_decide_eq_true h
    have hs := sym.isLt
    have hidx : field (encode (.ldleaf idx sym)) 8 9 = idx := by
      rw [field_encode_operands h (by decide), operandBits]; omega
    have hsym : symField (encode (.ldleaf idx sym)) = sym := symField_encode h (by rw [operandBits]; omega)
    rw [readFrom, hidx, hsym]
  | ldint idx left right =>
    have hf := h
    simp only [Instr.wellFormed, idxFits, Bool.and_eq_true, decide_eq_true_eq] at hf
    have hidx : field (encode (.ldint idx left right)) 18 9 = idx := by
      rw [field_encode_operands h (by decide), operandBits]; omega
    have hleft : field (encode (.ldint idx left right)) 9 9 = left := by
      rw [field_encode_operands h (by decide), operandBits]; omega
    have hright : field (encode (.ldint idx left right)) 0 9 = right := by
      rw [field_encode_operands h (by decide), operandBits]; omega
    rw [readFrom, hidx, hleft, hright]
  | setroot idx => exact congrArg _ (field_encode_only_operand h (len := 9) rfl (by decide) (of_decide_eq_true h))
  | rdnode idx => exact congrArg _ (field_encode_only_operand h (len := 9) rfl (by decide) (of_decide_eq_true h))
  | rdlen sym => exact congrArg _ (symField_encode h (Nat.mod_eq_of_lt sym.isLt))
  | rdcbit pos sym =>
    have hp : pos < 2 ^ 8 := of_decide_eq_true h
    have hs := sym.isLt
    have hpos : field (encode (.rdcbit pos sym)) 8 8 = pos := by
      rw [field_encode_operands h (by decide), operandBits]; omega
    have hsym : symField (encode (.rdcbit pos sym)) = sym := symField_encode h (by rw [operandBits]; omega)
    rw [readFrom, hpos, hsym]
  | putb byte => exact congrArg _ (symField_encode h (Nat.mod_eq_of_lt byte.isLt))
  | puteb bit => cases bit <;> rfl
  | encsym sym => exact congrArg _ (symField_encode h (Nat.mod_eq_of_lt sym.isLt))
  | rdebit index => exact congrArg _ (field_encode_only_operand h (len := 20) rfl (by decide) (of_decide_eq_true h))
  | rdob index => exact congrArg _ (field_encode_only_operand h (len := 20) rfl (by decide) (of_decide_eq_true h))
  | _ => rfl

/-- The encoder leaves the reserved bits 0: no operand reaches past the bits its format names (R91). -/
theorem reserved_encode : field (encode i) (namedBits (opcode i)) (27 - namedBits (opcode i)) = 0 := by
  have hlow : field (encode i) 0 27 = operandBits i := by
    obtain ⟨-, hb⟩ := encoding_fits i h
    rw [field_encode_operands h (by decide), Nat.pow_zero, Nat.div_one, Nat.mod_eq_of_lt hb]
  rw [reserved_eq_zero_iff, ← operandBits_readFrom, readFrom_encode h, hlow]

theorem decode_encode : decode (encode i) = .ok i := by
  obtain ⟨ho, hb⟩ := encoding_fits i h
  rw [decode_of_opcode (field_encode_opcode ho hb), withReserved_ok]
  exact ⟨reserved_encode h, readFrom_encode h⟩

end

/-- Settles O2: an encoded command has its own opcode, reserved bits 0, and its operands where the decoder reads them. -/
theorem decodeEncodeRoundTrip : Obligations.DecodeEncodeRoundTrip := fun _ h => decode_encode h

/-- Settles O3: the operands read from a legal word, put back, make up all the bits its format names, and the others
are 0. -/
theorem decodedWordsEncodeBack : Obligations.DecodedWordsEncodeBack := fun _ _ h => encode_of_decode_ok h

/-- Settles O1: the words written out, evaluated. -/
theorem sampleWordsDecode : Obligations.SampleWordsDecode := by
  unfold Obligations.SampleWordsDecode
  decide

/-! ## The opcode table -/

/-- The row of an opcode: the opcode and the reserved bits are compared, the operands are not (R93). -/
def rowOf (k : Nat) : TableRow := ⟨k, BitVec.ofNat 32 (k * 2 ^ 27), BitVec.allOnes 32 <<< namedBits k⟩

theorem opcodeTable_eq : opcodeTable = (List.range 28).map rowOf := by decide

theorem mem_opcodeTable {row : TableRow} : row ∈ opcodeTable ↔ ∃ k < 28, row = rowOf k := by
  simp [opcodeTable_eq, eq_comm]

/-- Masking out the low bits of a word. -/
theorem and_allOnes_shiftLeft {n : Nat} (w : BitVec n) (u : Nat) : w &&& BitVec.allOnes n <<< u = w >>> u <<< u := by
  ext i hi
  by_cases h : i < u
  · simp [h]
  · simp [h, hi, Nat.add_sub_cancel' (Nat.le_of_not_lt h)]

/-- Comparing the masked word is comparing the number above the masked bits. -/
theorem and_allOnes_shiftLeft_eq_iff (w v : Word) {u : Nat} (hv : 2 ^ u ∣ v.toNat) :
    w &&& BitVec.allOnes 32 <<< u = v ↔ w.toNat / 2 ^ u = v.toNat / 2 ^ u := by
  have hlt : w.toNat / 2 ^ u * 2 ^ u < 2 ^ 32 := Nat.lt_of_le_of_lt (Nat.div_mul_le_self _ _) w.isLt
  rw [and_allOnes_shiftLeft, ← BitVec.toNat_inj, BitVec.toNat_shiftLeft, BitVec.toNat_ushiftRight, Nat.shiftLeft_eq,
    Nat.shiftRight_eq_div_pow, Nat.mod_eq_of_lt hlt]
  exact eq_comm.trans (Nat.eq_div_iff_mul_eq_left (Nat.two_pow_pos u).ne' hv).symm

theorem field_opcode (w : Word) : field w 27 5 = w.toNat / 2 ^ 27 := by
  have := w.isLt
  rw [field]
  omega

/-- A word matches the row of its own opcode when its reserved bits are 0, and no other row (R93). -/
theorem rowOf_matches {k : Nat} (hk : k < 28) (w : Word) :
    (rowOf k).Matches w ↔ field w 27 5 = k ∧ field w (namedBits k) (27 - namedBits k) = 0 := by
  have hu := namedBits_le k
  have hp : 2 ^ 27 = 2 ^ namedBits k * 2 ^ (27 - namedBits k) := by rw [← Nat.pow_add, Nat.add_sub_cancel' hu]
  have hv : (BitVec.ofNat 32 (k * 2 ^ 27)).toNat = 2 ^ namedBits k * (2 ^ (27 - namedBits k) * k) := by
    rw [BitVec.toNat_ofNat, Nat.mod_eq_of_lt (by omega), Nat.mul_comm, hp, Nat.mul_assoc]
  have hf : field w 27 5 = w.toNat / 2 ^ namedBits k / 2 ^ (27 - namedBits k) := by
    rw [Nat.div_div_eq_div_mul, ← hp, field_opcode]
  have hpos := Nat.two_pow_pos (27 - namedBits k)
  unfold TableRow.Matches
  rw [rowOf, and_allOnes_shiftLeft_eq_iff _ _ (hv ▸ Nat.dvd_mul_right _ _), hv,
    Nat.mul_div_cancel_left _ (Nat.two_pow_pos _), hf, field]
  constructor
  · intro h
    rw [h]
    exact ⟨Nat.mul_div_cancel_left _ hpos, Nat.mul_mod_right _ _⟩
  · rintro ⟨hq, hr⟩
    rw [← Nat.div_add_mod (w.toNat / 2 ^ namedBits k) (2 ^ (27 - namedBits k)), hq, hr, Nat.add_zero]

/-- The rows match exactly the legal words (R93). -/
theorem exists_row_matches_iff (w : Word) :
    (∃ row ∈ opcodeTable, row.Matches w) ↔ ∃ i, decode w = .ok i := by
  simp only [mem_opcodeTable, decode_legal_iff]
  constructor
  · rintro ⟨_, ⟨k, hk, rfl⟩, hm⟩
    obtain ⟨rfl, hz⟩ := (rowOf_matches hk w).1 hm
    exact ⟨hk, hz⟩
  · rintro ⟨hk, hz⟩
    exact ⟨_, ⟨_, hk, rfl⟩, (rowOf_matches hk w).2 ⟨rfl, hz⟩⟩

/-- The opcode of a word leaves one row that can match it (R93). -/
theorem row_of_matches {row : TableRow} {w : Word} (hr : row ∈ opcodeTable) (hm : row.Matches w) :
    row = rowOf (field w 27 5) := by
  obtain ⟨k, hk, rfl⟩ := mem_opcodeTable.1 hr
  rw [((rowOf_matches hk w).1 hm).1]

/-! ## The step of a command word -/

section
variable {s : State} {w : Word} {rest : List HostEvent} (hi : s.inbox = .command w :: rest)
include hi

/-- A legal word runs its command (R93). -/
theorem step_of_decode_ok {i : Instr} (hd : decode w = .ok i) : step s = exec i { s with inbox := rest } := by
  simp only [step, nextEvent_cons s _ rest hi, hd]

/-- Any other word raises `E_ILLEGAL(cmd[23:0])` (R93). -/
theorem step_of_not_legal (hd : ¬ ∃ i, decode w = .ok i) :
    step s = .next (faulted { s with inbox := rest } 1 (w.toNat % 2 ^ 24)) := by
  rw [← illegalCommand_eq]
  cases h : decode w with
  | ok i => exact absurd ⟨i, h⟩ hd
  | error _ => simp only [step, nextEvent_cons s _ rest hi, h]

end

/-- Settles O4: a row matches the words that have its opcode and reserved bits 0, which are those the decoder accepts. -/
theorem legalExactlyWhenOneTableRowMatches : Obligations.LegalExactlyWhenOneTableRowMatches := by
  intro w
  refine ⟨(exists_row_matches_iff w).symm, fun r1 h1 r2 h2 m1 m2 => ?_, fun i hd => ?_, fun s rest hi => ?_⟩
  · rw [row_of_matches h1 m1, row_of_matches h2 m2]
  · obtain ⟨row, hr, hm⟩ := (exists_row_matches_iff w).2 ⟨i, hd⟩
    exact ⟨row, hr, hm, by rw [row_of_matches hr hm, opcode_of_decode_ok hd, rowOf]⟩
  · exact ⟨fun i => step_of_decode_ok hi, step_of_not_legal hi⟩

/-- Settles O5: the row that matches a legal word is the one of the word's opcode, and NOP has no other word than its
encoding. -/
theorem reservedWordsAreIllegal : Obligations.ReservedWordsAreIllegal := by
  constructor
  · intro w s rest hi hw
    apply step_of_not_legal hi
    intro hd
    rw [← field_opcode] at hw
    rcases hw with hk | ⟨row, hr, ho, hn⟩
    · exact absurd ((decode_legal_iff w).1 hd).1 (Nat.not_lt.2 hk)
    · obtain ⟨row', hr', hm⟩ := (exists_row_matches_iff w).2 hd
      obtain ⟨k, -, rfl⟩ := mem_opcodeTable.1 hr
      rw [row_of_matches hr' hm, ← ho] at hm
      exact hn hm
  · intro w
    constructor
    · intro hd
      rw [← (encode_of_decode_ok hd).2]
      rfl
    · rintro rfl
      rfl

end Sys2Proof
end

section
/-! What DECODE delivers (R115, R240): a completed walk has read whole codes, and a stream is made of whole codes in one way. -/

namespace Sys2Proof.Machine

open Sys2Proof.Safety

theorem eq_nil_of_encoded_eq_nil {tab : CodeTable} {l : List Byte} (hl : AllCoded tab l) (he : encoded tab l = []) :
    l = [] := by
  have hle := length_le_encoded hl
  rw [he] at hle
  exact List.length_eq_zero_iff.1 (Nat.le_zero.1 hle)

/-- Two sequences of coded Symbols with the same codes are the same: the first codes begin one another (R115). -/
theorem encoded_injective {tab : CodeTable} (hp : PrefixFree tab) {l m : List Byte} (hl : AllCoded tab l)
    (hm : AllCoded tab m) (he : encoded tab l = encoded tab m) : l = m := by
  induction l generalizing m with
  | nil => exact (eq_nil_of_encoded_eq_nil hm he.symm).symm
  | cons x l ih =>
    cases m with
    | nil => exact eq_nil_of_encoded_eq_nil hl he
    | cons y m =>
      rw [allCoded_cons] at hl hm
      rw [encoded_cons, encoded_cons] at he
      have hxy : x = y := by
        by_contra hne
        have hx : codeOf tab x <+: codeOf tab y ++ encoded tab m := he ▸ List.prefix_append _ _
        rcases List.prefix_or_prefix_of_prefix hx (List.prefix_append _ _) with h | h
        · exact hp x y hne hl.1 hm.1 h
        · exact hp y x (Ne.symm hne) hm.1 hl.1 h
      subst hxy
      rw [ih hl.2 hm.2 (List.append_cancel_left he)]

/-- What a walk that completes under a single-symbol codebook has read: one 0 bit for each Symbol written (R240). -/
theorem decodeSingle_ok {tab : CodeTable} {sym : Byte} (hc : codeOf tab sym = [false]) {cap i : Nat} {out res : List Byte}
    {e : BitString} (h : decodeSingle cap sym i out e = .ok res) :
    ∃ syms, res = out ++ syms ∧ AllCoded tab syms ∧ e = encoded tab syms := by
  induction e generalizing i out with
  | nil =>
    cases h
    exact ⟨[], by simp⟩
  | cons b e ih =>
    cases b with
    | true => simp [decodeSingle_one] at h
    | false =>
      by_cases hf : out.length = cap
      · simp [decodeSingle_full cap sym i out e hf] at h
      · rw [decodeSingle, if_neg (by decide), if_neg hf] at h
        obtain ⟨syms, rfl, ha, rfl⟩ := ih h
        exact ⟨sym :: syms, by simp, by simp [hc, ha], by simp [hc]⟩

/-- What a walk that completes has read: the codes of the Symbols written (R240). It goes code by code, since a stream that
does not begin with a code ends inside one (R116), where the walk faults. -/
theorem decodeWalk_ok {t : Tree} {l r : NodeIdx} {a b : HTree} (ha : Unfolds t l a) (hb : Unfolds t r b)
    {tab : CodeTable} (hn : (HTree.node a b).symbols.Nodup) (ht : IsTableOf tab (HTree.node a b).codes) {cap i : Nat}
    {out res : List Byte} {e : BitString} (h : decodeWalk t cap l r i l r 0 out e = .ok res) :
    ∃ syms, res = out ++ syms ∧ AllCoded tab syms ∧ e = encoded tab syms := by
  induction hlen : e.length using Nat.strong_induction_on generalizing e i out with
  | _ n ih =>
    by_cases hz : e = []
    · subst hz
      cases h
      exact ⟨[], by simp⟩
    rcases paths_cover (.node a b) e with ⟨c, hc, rest, rfl⟩ | ⟨c, hc, hp, hne⟩
    · have hcode : codeOf tab c.1 = c.2 := ht.1 c hc
      have hpos := (codes_length hn hc).1
      rw [decodeWalk_code ha hb hc] at h
      split at h
      · cases h
      · obtain ⟨syms, rfl, hs, rfl⟩ := ih _ (by simp only [List.length_append] at hlen; omega) h rfl
        refine ⟨c.1 :: syms, by simp, ?_, by rw [encoded_cons, hcode]⟩
        rw [allCoded_cons, hcode]
        exact ⟨List.ne_nil_of_length_pos hpos, hs⟩
    · have hpos := List.length_pos_of_ne_nil hz
      rw [decodeWalk_inside ha hb hc hp hne cap l r i 0 (by omega)] at h
      cases h

/-- What DECODE delivers of a non-empty stream, under a well-formed tree and its table (R240). -/
theorem decodeBits_ok {t : Tree} {root : NodeIdx} {h : HTree} (hw : WellFormedTree t root h) {tab : CodeTable}
    (ht : IsTableOf tab h.codes) {cap : Nat} {e : BitString} {out : List Byte} (hd : decodeBits t root cap e = .ok out) :
    AllCoded tab out ∧ e = encoded tab out := by
  suffices hs : ∃ syms, out = [] ++ syms ∧ AllCoded tab syms ∧ e = encoded tab syms by
    obtain ⟨syms, rfl, hs⟩ := hs
    exact hs
  obtain ⟨hu, hn⟩ := hw
  cases hu with
  | leaf hx =>
    rw [decodeBits, walkNode_of_loaded hx] at hd
    exact decodeSingle_ok (ht.1 (_, [false]) (List.mem_singleton_self _)) hd
  | node hx hl hr =>
    rw [decodeBits, walkNode_of_loaded hx] at hd
    exact decodeWalk_ok hl hr hn ht hd

/-- What a completed DECODE has read, in every state of the invariant. -/
theorem execDecode_ok {s t : State} (hs : Inv s) (h : exec .decode s = .next t) (hd : Completed t) :
    s.ctabv = true ∧ AllCoded s.ctab t.obuf ∧ s.ebuf = encoded s.ctab t.obuf := by
  rw [exec] at h
  rcases execDecode_cases s with ⟨-, he⟩ | ⟨hv, hz, he⟩ | ⟨-, -, -, he⟩ | ⟨e, -, -, -, -, he⟩ | ⟨out, hv, -, hr, hb, he⟩ <;>
    rw [he] at h <;> cases h
  · exact absurd hd (not_completed_raise _ _)
  · exact ⟨hv, by simp, by simp [hz]⟩
  · exact absurd hd (not_completed_raise _ _)
  · exact absurd hd (not_completed_raise _ _)
  · obtain ⟨-, htable⟩ := hs.table hv
    obtain ⟨h, hw, ht⟩ := htable hr
    exact ⟨hv, decodeBits_ok hw ht hb⟩

/-- Settles O41: what a completed DECODE has read are the codes of what it delivers, and no two sequences have the same
codes. -/
theorem decodeCompletesOnlyOnWholeCodes : Obligations.DecodeCompletesOnlyOnWholeCodes := by
  intro s t hs h hd
  obtain ⟨hv, hall, he⟩ := execDecode_ok hs h hd
  exact ⟨hv, hall, he, fun syms hsyms hsame => encoded_injective (hs.prefixFree hv) hsyms hall (hsame.symm.trans he)⟩

end Sys2Proof.Machine
end

section
/-! Tree memory and the code table (R165 to R177). GENTAB's recursion is the explicit-stack walk (R170, R171): the stack
stays below 256 entries because no stacked entry is deeper than the top's path is long, and the loop within 257 * 256 turns
because every leaf codes a Symbol that had no code and at most 255 internal nodes are passed on the way to the next leaf. -/

namespace Sys2Proof.Machine

open Sys2Proof.Safety

/-! ## The faults the commands of this family share -/

theorem raise_range (s : State) (n : Nat) : s.raise (raised .range n) = faulted s 2 n := raise_eq_faulted s .range n

theorem raise_notab (s : State) : s.raise (raised .notab 0) = faulted s 7 0 := raise_eq_faulted s .notab 0

/-! ## Loading and reading tree memory -/

/-- Settles O14: no entry of the emptied tree memory is loaded. -/
theorem clrtreeForgetsTheTree : Obligations.ClrtreeForgetsTheTree :=
  ⟨by decide, fun _ => ⟨noNodes, nodeAt_noNodes, congrArg Host.Outcome.next (complete_eq_completed _ 0)⟩⟩

/-- Settles O15: `idx` names an entry, and that one is written, or is past 510. -/
theorem ldleafWritesOneLeaf : Obligations.LdleafWritesOneLeaf := by
  refine ⟨fun idx sym hi => ?_, fun s sym => ⟨fun n => ⟨setNode s.tree n (.leaf sym), ?_, ?_, ?_⟩, fun idx hi => ?_⟩⟩
  · rw [Nat.add_assoc]
    exact decode_encode (i := .ldleaf idx sym) (decide_eq_true hi)
  · rw [exec, execLdleaf, nodeIdx?_val]
    exact congrArg _ (complete_eq_completed _ 0)
  · exact nodeAt_setNode_self _ _ _
  · exact fun m hm => nodeAt_setNode_ne _ _ _ _ hm
  · rw [exec, execLdleaf, nodeIdx?_of_ge hi]
    exact congrArg _ (raise_range s idx)

/-- LDINT's three range tests, in their order (R167). -/
theorem execLdint_range (s : State) {idx left right : Nat} (h : 510 < idx ∨ 510 < left ∨ 510 < right) :
    execLdint idx left right s =
      .next (s.raise (raised .range (if 510 < idx then idx else if 510 < left then left else right))) := by
  by_cases hi : 510 < idx
  · simp [execLdint, nodeIdx?_of_ge hi, hi]
  · by_cases hl : 510 < left
    · simp [execLdint, nodeIdx?_of_lt (show idx < 511 by omega), nodeIdx?_of_ge hl, hi, hl]
    · have hr : 510 < right := by omega
      simp [execLdint, nodeIdx?_of_lt (show idx < 511 by omega), nodeIdx?_of_lt (show left < 511 by omega),
        nodeIdx?_of_ge hr, hi, hl]

/-- Settles O16: all three operands name entries, and `idx` is written, or the first that is past 510 is the fault's. -/
theorem ldintWritesOneInternalNode : Obligations.LdintWritesOneInternalNode := by
  refine ⟨fun idx left right hi hl hr => ?_,
    fun s => ⟨fun n l r => ⟨setNode s.tree n (.internal l r), ?_, ?_, ?_⟩, fun idx left right h => ?_⟩⟩
  · have hf : (Instr.ldint idx left right).wellFormed = true := by simp [Instr.wellFormed, idxFits, hi, hl, hr]
    simpa only [encode, opcode, operandBits, Nat.add_assoc] using decode_encode hf
  · rw [exec, execLdint, nodeIdx?_val, nodeIdx?_val, nodeIdx?_val]
    exact congrArg _ (complete_eq_completed _ 0)
  · exact nodeAt_setNode_self _ _ _
  · exact fun m hm => nodeAt_setNode_ne _ _ _ _ hm
  · rw [exec, execLdint_range s h, raise_range]

/-- Settles O17: `idx` names an entry, the new root, or is past 510. -/
theorem setrootNamesTheRoot : Obligations.SetrootNamesTheRoot := by
  refine ⟨fun idx hi => decode_encode (i := .setroot idx) (decide_eq_true hi), fun s => ⟨fun n => ?_, fun idx hi => ?_⟩⟩
  · rw [exec, execSetroot, nodeIdx?_val]
    exact congrArg _ (complete_eq_completed _ 0)
  · rw [exec, execSetroot, nodeIdx?_of_ge hi]
    exact congrArg _ (raise_range s idx)

/-- A node word has 20 bits (R98). -/
theorem nodeWord_lt (x : Option Node) : nodeWord x < 2 ^ 20 := by
  match x with
  | none => decide
  | some (.leaf sym) => have := sym.isLt; simp only [nodeWord]; omega
  | some (.internal l r) => have := l.isLt; have := r.isLt; simp only [nodeWord]; omega

theorem answer_nodeWord_toNat (x : Option Node) : (answer 0 (nodeWord x)).toNat = nodeWord x := by
  have h := nodeWord_lt x
  rw [answer_toNat 0 _ (by decide)]
  omega

/-- Settles O18: the answer is the node word, whose fields are read off its three forms. -/
theorem rdnodeReturnsTheNodeWord : Obligations.RdnodeReturnsTheNodeWord := by
  refine ⟨fun idx hi => decode_encode (i := .rdnode idx) (decide_eq_true hi), fun s => ⟨fun n => ?_, fun idx hi => ?_⟩⟩
  · have hr := answer_nodeWord_toNat (nodeAt s.tree n)
    refine ⟨answer 0 (nodeWord (nodeAt s.tree n)), ?_, ?_, fun hn => ?_, fun sym hn => ?_, fun left right hn => ?_⟩
    · rw [exec, execRdnode, nodeIdx?_val]
      exact congrArg _ (complete_eq_completed _ _)
    · rw [hr]
      exact Nat.div_eq_of_lt (nodeWord_lt _)
    · rw [hn]
      rfl
    · have hs := sym.isLt
      rw [hr, hn, nodeWord]
      omega
    · have hl := left.isLt
      have hr' := right.isLt
      rw [hr, hn, nodeWord]
      omega
  · rw [exec, execRdnode, nodeIdx?_of_ge hi]
    exact congrArg _ (raise_range s idx)

/-! ## Reading the code table -/

/-- Settles O23: without a table a fault, with one the length. -/
theorem rdlenReadsTheLength : Obligations.RdlenReadsTheLength := by
  refine ⟨fun sym => decode_encode (i := .rdlen sym) rfl, fun s sym => ?_⟩
  rw [exec, execRdlen, raise_notab, complete_eq_completed]
  cases s.ctabv <;> rfl

/-- Settles O24: without a table a fault; with one, the position is in the code or past it. -/
theorem rdcbitReadsOneBit : Obligations.RdcbitReadsOneBit := by
  refine ⟨fun pos sym hp => ?_, fun s pos sym => ?_⟩
  · rw [Nat.add_assoc]
    exact decode_encode (i := .rdcbit pos sym) (decide_eq_true hp)
  · rw [exec, execRdcbit, raise_notab, codeBit?]
    by_cases hl : (codeOf s.ctab sym).length ≤ pos
    · rw [if_pos hl, List.getElem?_eq_none hl, raise_range, apply_ite Host.Outcome.next]
    · rw [if_neg hl, List.getD_eq_getElem?_getD, List.getElem?_eq_getElem (Nat.lt_of_not_le hl), Option.getD_some,
        apply_ite Host.Outcome.next, ← complete_eq_completed]

/-! ## The stack walk -/

/-- How many Symbols have no code yet. -/
def uncoded (tab : CodeTable) : Nat := tab.count []

theorem uncoded_noCodes : uncoded noCodes = 256 := Vector.count_replicate_self

/-- Giving a code to a Symbol that had none leaves one Symbol fewer without. -/
theorem uncoded_setCode {tab : CodeTable} {sym : Byte} (h : codeOf tab sym = []) {p : BitString} (hp : p ≠ []) :
    uncoded (setCode tab sym p) + 1 = uncoded tab := by
  have hpos : 0 < tab.count [] := Vector.count_pos_iff.2 (h ▸ Vector.getElem_mem sym.isLt)
  have hset : uncoded (setCode tab sym p) = tab.count [] - 1 := by
    have hx : tab[sym.toNat]'sym.isLt = [] := h
    simp [uncoded, setCode, Vector.count_set, hx, hp]
  rw [hset, uncoded]
  omega

/-- The loop ends on an empty stack. -/
theorem stackLoop_nil (t : Tree) (fuel : Nat) (acc : Walk) : stackLoop t fuel [] acc = some (.ok acc) := by
  rw [stackLoop]

section
variable {t : Tree} {n : NodeIdx} {rest : List (NodeIdx × BitString)} (hrest : rest.length < 256)
include hrest

/-! The turns of the loop, while the stack is within its bound (R170). -/

theorem stackLoop_unloaded (h : nodeAt t n = none) (fuel : Nat) (p : BitString) (acc : Walk) :
    stackLoop t (fuel + 1) ((n, p) :: rest) acc = some (.error (raised .tree n.val)) := by
  rw [stackLoop, if_neg (by omega), h]

theorem stackLoop_leaf {sym : Byte} (h : nodeAt t n = some (.leaf sym)) (fuel : Nat) (p : BitString) (acc : Walk) :
    stackLoop t (fuel + 1) ((n, p) :: rest) acc =
      if codeOf acc.table sym = [] then stackLoop t fuel rest ⟨setCode acc.table sym p, acc.count + 1⟩
      else some (.error (raised .dupsym n.val)) := by
  rw [stackLoop, if_neg (by omega), h]
  by_cases hc : codeOf acc.table sym = [] <;> simp [hc]

theorem stackLoop_internal {l r : NodeIdx} (h : nodeAt t n = some (.internal l r)) (fuel : Nat) (p : BitString)
    (acc : Walk) :
    stackLoop t (fuel + 1) ((n, p) :: rest) acc =
      if p.length = 255 then some (.error (raised .depth n.val))
      else stackLoop t fuel ((l, p ++ [false]) :: (r, p ++ [true]) :: rest) acc := by
  rw [stackLoop, if_neg (by omega), h]

end

/-- What becomes of the loop once it has dealt with its top entry, for which the recursion answers with a fault or with the
walk so far: it stops with the same fault, or it goes on with the rest of the stack and the same walk. It has then kept turns
enough for every Symbol still without a code and for one more leaf or fault, 256 for each (R171). -/
def Continues (t : Tree) (rest : List (NodeIdx × BitString)) (loop : Option (Except Raised Walk)) :
    Except Raised Walk → Prop
  | .error e => loop = some (.error e)
  | .ok acc => ∃ fuel, 256 * uncoded acc.table + 256 ≤ fuel ∧ loop = stackLoop t fuel rest acc

/-- The loop does with its top entry what the recursion does, while no more entries lie below it than its path has bits, and
the turns suffice for the way down from it and, after that, for every Symbol without a code. A leaf on top of an empty path
would give its Symbol no code; only the root of a walk has an empty path, and it is no leaf. -/
theorem stackLoop_visit {t : Tree} {room : Nat} {n : NodeIdx} {p : BitString} {acc : Walk}
    (hroom : p.length + room = 255) (hleaf : ∀ sym, nodeAt t n = some (.leaf sym) → p ≠ [])
    {fuel : Nat} {rest : List (NodeIdx × BitString)} (hrest : rest.length ≤ p.length)
    (hfuel : 256 * uncoded acc.table + room ≤ fuel) :
    Continues t rest (stackLoop t (fuel + 1) ((n, p) :: rest) acc) (visit t room n p acc) := by
  have hstack : rest.length < 256 := by omega
  have hlen (p : BitString) (b : Bit) : (p ++ [b]).length = p.length + 1 := List.length_append
  fun_induction visit t room n p acc generalizing fuel rest with
  | case1 room n p acc hn => exact stackLoop_unloaded hstack hn fuel p acc
  | case2 room n p acc sym hn hc =>
    have hu := uncoded_setCode hc (hleaf sym hn)
    rw [stackLoop_leaf hstack hn, if_pos hc]
    exact ⟨fuel, by simp only; omega, rfl⟩
  | case3 room n p acc sym hn hc =>
    rw [stackLoop_leaf hstack hn, if_neg hc]
    rfl
  | case4 n p acc l r hn =>
    rw [stackLoop_internal hstack hn, if_pos (by omega)]
    rfl
  | case5 n p acc room l r hn e hl ihl =>
    obtain ⟨fuel, rfl⟩ := Nat.exists_eq_add_one.2 (show 0 < fuel by omega)
    rw [stackLoop_internal hstack hn, if_neg (by omega)]
    rw [hl] at ihl
    exact ihl (by rw [hlen]; omega) (by simp) (by simpa using hrest) (by omega) (by rw [List.length_cons]; omega)
  | case6 n p acc room l r hn acc' hl ihl ihr =>
    obtain ⟨fuel, rfl⟩ := Nat.exists_eq_add_one.2 (show 0 < fuel by omega)
    rw [stackLoop_internal hstack hn, if_neg (by omega)]
    rw [hl] at ihl
    obtain ⟨fuel', hfuel', hloop⟩ := ihl (fuel := fuel) (rest := (r, p ++ [true]) :: rest)
      (by rw [hlen]; omega) (by simp) (by simpa using hrest) (by omega) (by rw [List.length_cons]; omega)
    obtain ⟨fuel', rfl⟩ := Nat.exists_eq_add_one.2 (show 0 < fuel' by omega)
    rw [hloop]
    exact ihr (by rw [hlen]; omega) (by simp) (by rw [hlen]; omega) (by omega) hstack

/-- From a root that is no leaf, R171's turns suffice for the whole walk: 256 for each of the 256 Symbols and 256 more. -/
theorem stackLoop_root {t : Tree} {root l r : NodeIdx} (hn : nodeAt t root = some (.internal l r)) {acc : Walk}
    (hu : uncoded acc.table = 256) {fuel : Nat} (hfuel : 257 * 256 ≤ fuel) :
    stackLoop t fuel [(root, [])] acc = some (visit t 255 root [] acc) := by
  obtain ⟨fuel, rfl⟩ := Nat.exists_eq_add_one.2 (show 0 < fuel by omega)
  have hc : Continues t [] (stackLoop t (fuel + 1) [(root, [])] acc) (visit t 255 root [] acc) :=
    stackLoop_visit rfl (by simp [hn]) (Nat.le_refl 0) (by omega)
  cases hv : visit t 255 root [] acc with
  | error e =>
    rw [hv] at hc
    exact hc
  | ok w =>
    rw [hv] at hc
    obtain ⟨fuel', -, hloop⟩ := hc
    exact hloop.trans (stackLoop_nil t fuel' w)

/-- GENTAB's recursion computes what the explicit stack does, and the bounds of R171 are never passed. -/
theorem generateByStack_eq (s : State) : generateByStack s = some (generate s.tree s.root s.rootv) := by
  unfold generateByStack generate
  cases s.rootv with
  | false => rfl
  | true =>
    cases hn : nodeAt s.tree s.root with
    | none => rfl
    | some x =>
      cases x with
      | leaf sym => rfl
      | internal l r => exact stackLoop_root hn (acc := ⟨noCodes, 0⟩) uncoded_noCodes (Nat.le_refl _)

/-! ## GENTAB -/

theorem exec_gentab_of_ok {s : State} {w : Walk} (h : generate s.tree s.root s.rootv = .ok w) :
    exec .gentab s = .next (completed { s with ctab := w.table, ctabv := true } w.count) := by
  rw [exec, execGentab, h]
  exact congrArg Host.Outcome.next (complete_eq_completed _ _)

theorem exec_gentab_of_error {s : State} {e : Raised} (h : generate s.tree s.root s.rootv = .error e) :
    exec .gentab s = .next (s.dropTable.raise e) := by
  rw [exec, execGentab, h]

/-- What a completed GENTAB leaves: the table and the flag, of a codebook on which `generate` does not fault (R170). -/
theorem exec_gentab_completed {s t : State} (h : exec .gentab s = .next t) (hd : Completed t) :
    ∃ w, generate s.tree s.root s.rootv = .ok w ∧ t.ctab = w.table := by
  rcases execGentab_cases s with ⟨e, -, he⟩ | ⟨w, hg, he⟩ <;> rw [exec, he] at h <;> cases h
  · exact absurd hd (not_completed_raise _ _)
  · exact ⟨w, hg, rfl⟩

/-- `generate` completes on no other codebook than a well-formed one (R172). -/
theorem wellFormedCodebook_of_generate_ok {s : State} {w : Walk} (hg : generate s.tree s.root s.rootv = .ok w) :
    WellFormedCodebook s := by
  intro hv
  rw [hv] at hg
  obtain ⟨h, hw, -⟩ := generate_table hg
  exact ⟨h, hw⟩

/-- Settles O19: the recursion and the stack agree, and GENTAB is the recursion. -/
theorem gentabIsTheStackWalk : Obligations.GentabIsTheStackWalk := by
  refine ⟨by decide, fun s => ⟨generate s.tree s.root s.rootv, generateByStack_eq s, ?_⟩⟩
  cases hg : generate s.tree s.root s.rootv with
  | error e => rw [exec_gentab_of_error hg, raise_eq]; rfl
  | ok w => exact exec_gentab_of_ok hg

/-- Settles O20: `generate` completes on the empty codebook and on a well-formed tree, and a completed walk has exhibited a
well-formed tree. -/
theorem gentabCompletesExactlyOnWellFormed : Obligations.GentabCompletesExactlyOnWellFormed := by
  refine fun s => ⟨fun hv => ?_, fun h hv hw => ?_, fun t ht hd => ?_⟩
  · have hg : generate s.tree s.root s.rootv = .ok ⟨noCodes, 0⟩ := by rw [hv]; rfl
    exact ⟨noCodes, exec_gentab_of_ok hg, codeOf_noCodes⟩
  · have hg : generate s.tree s.root s.rootv = .ok ⟨recordAll noCodes h.codes, h.symbols.length⟩ := by
      rw [hv, generate_complete hw]
    exact ⟨_, exec_gentab_of_ok hg, recordAll_isTableOf (by rw [codes_symbols]; exact hw.2)⟩
  · obtain ⟨w, hg, -⟩ := exec_gentab_completed ht hd
    exact wellFormedCodebook_of_generate_ok hg

/-- Settles O21: `generate` cannot complete, so it faults, with one of its three codes. -/
theorem gentabFaultsLeaveNoTable : Obligations.GentabFaultsLeaveNoTable := by
  refine fun s hs => ⟨noCodes, codeOf_noCodes, ?_⟩
  cases hg : generate s.tree s.root s.rootv with
  | ok w => exact absurd (wellFormedCodebook_of_generate_ok hg) hs
  | error e =>
    rw [exec_gentab_of_error hg]
    obtain ⟨-, m, rfl | rfl | rfl⟩ := generate_error hg
    · exact ⟨4, m, by decide, by rw [raise_eq_faulted]; rfl⟩
    · exact ⟨5, m, by decide, by rw [raise_eq_faulted]; rfl⟩
    · exact ⟨6, m, by decide, by rw [raise_eq_faulted]; rfl⟩

/-- Settles O22: the table is empty, or that of a well-formed tree. -/
theorem gentabCodesArePrefixFree : Obligations.GentabCodesArePrefixFree := by
  intro s t ht hd
  obtain ⟨w, hg, htab⟩ := exec_gentab_completed ht hd
  rw [htab]
  cases hv : s.rootv with
  | false =>
    rw [hv] at hg
    cases hg
    exact ⟨fun a _ _ ha => absurd (codeOf_noCodes a) ha, fun sym hs => absurd (codeOf_noCodes sym) hs⟩
  | true =>
    rw [hv] at hg
    obtain ⟨h, ⟨-, hn⟩, htable, -⟩ := generate_table hg
    exact ⟨prefixFree_of_isTableOf hn htable, fun sym hs => codes_length hn (mem_codes_of_coded htable hs)⟩

end Sys2Proof.Machine
end

section
/-! The symbol encoder (R191 to R197). ENCODE goes through a stretch of the input whose Symbols have codes that fit, to the
end or to the Symbol it faults at; CLRE and one ENCSYM per Symbol of that stretch append the same codes, and the next ENCSYM
meets the same fault. -/

namespace Sys2Proof.Machine

open Sys2Proof.Safety

/-! ## The encoder's faults -/

theorem raise_overflow (s : State) (n : Nat) : s.raise (raised .overflow n) = faulted s 3 n := raise_eq_faulted s .overflow n

theorem raise_nosym (s : State) (n : Nat) : s.raise (raised .nosym n) = faulted s 8 n := raise_eq_faulted s .nosym n

/-! ## The commands on single bits and codes -/

/-- Settles O28: CLRE has no test, PUTEB the one for a full stream. -/
theorem clreAndPutebFillTheStream : Obligations.ClreAndPutebFillTheStream := by
  refine ⟨by decide, by decide, by decide, fun _ => congrArg Host.Outcome.next (complete_eq_completed _ 0),
    fun s b => ?_⟩
  rw [exec, execPuteb, raise_overflow, complete_eq_completed, apply_ite Host.Outcome.next]

/-- Settles O29: the four branches of ENCSYM are those of the statement. -/
theorem encsymAppendsAWholeCode : Obligations.EncsymAppendsAWholeCode := by
  refine ⟨fun sym => decode_encode (i := .encsym sym) rfl, fun s sym => ?_⟩
  rw [exec]
  rcases execEncsym_cases sym s with ⟨hv, h⟩ | ⟨hv, hc, h⟩ | ⟨hv, hc, hf, h⟩ | ⟨hv, hc, hf, h⟩ <;> rw [h]
  · rw [if_pos hv, raise_notab]
  · rw [if_neg (ne_false_of_eq_true hv), if_pos hc, raise_nosym]
  · rw [if_neg (ne_false_of_eq_true hv), if_neg hc, if_pos hf, raise_overflow]
  · rw [if_neg (ne_false_of_eq_true hv), if_neg hc, if_neg (Nat.not_lt.2 hf), complete_eq_completed]

theorem exec_encsym_of_no_table {s : State} (hv : s.ctabv = false) (sym : Byte) :
    exec (.encsym sym) s = .next (faulted s 7 0) := by
  rw [encsymAppendsAWholeCode.2, if_pos hv]

theorem exec_encsym_of_uncoded {s : State} {sym : Byte} (hv : s.ctabv = true) (hc : codeOf s.ctab sym = []) :
    exec (.encsym sym) s = .next (faulted s 8 sym.toNat) := by
  rw [encsymAppendsAWholeCode.2, if_neg (ne_false_of_eq_true hv), if_pos hc]

theorem exec_encsym_of_full {s : State} {sym : Byte} (hv : s.ctabv = true) (hc : codeOf s.ctab sym ≠ [])
    (hf : s.cfg.ebufCap < s.elen + (codeOf s.ctab sym).length) :
    exec (.encsym sym) s = .next (faulted s 3 s.elen) := by
  rw [encsymAppendsAWholeCode.2, if_neg (ne_false_of_eq_true hv), if_neg hc, if_pos hf]

/-- Settles O30: the index is past the stream or names a bit of it. -/
theorem rdebitReadsOneBit : Obligations.RdebitReadsOneBit := by
  refine ⟨fun index hi => decode_encode (i := .rdebit index) (decide_eq_true hi), fun s index => ?_⟩
  rw [exec, execRdebit, ebufBit?]
  by_cases hl : s.elen ≤ index
  · rw [if_pos hl, List.getElem?_eq_none hl, raise_range]
  · rw [if_neg hl, List.getD_eq_getElem?_getD, List.getElem?_eq_getElem (Nat.lt_of_not_le hl), Option.getD_some,
      ← complete_eq_completed]

/-! ## The loop of ENCODE -/

/-- The loop goes through Symbols that have codes and fit, and on from there. -/
theorem encodeFrom_append {t : CodeTable} {cap : Nat} {pre : List Byte} (hc : AllCoded t pre) {k : Nat} {e : BitString}
    (hf : (e ++ encoded t pre).length ≤ cap) (l : List Byte) :
    encodeFrom t cap k e (pre ++ l) = encodeFrom t cap (k + pre.length) (e ++ encoded t pre) l := by
  induction pre generalizing k e with
  | nil => simp
  | cons x pre ih =>
    rw [allCoded_cons] at hc
    rw [encoded_cons, ← List.append_assoc] at hf
    have hx : ¬ cap < e.length + (codeOf t x).length := by
      simp only [List.length_append] at hf
      omega
    rw [List.cons_append, encodeFrom_cons, if_neg hc.1, if_neg hx, ih hc.2 hf, encoded_cons, List.append_assoc,
      List.length_cons, Nat.add_assoc, Nat.add_comm 1]

theorem exec_encode_of_no_table {s : State} (hv : s.ctabv = false) :
    exec .encode s = .next (faulted { s with ebuf := [] } 7 0) := by
  rw [exec, execEncode, if_pos hv, raise_notab]

theorem exec_encode_of_ok {s : State} {e : BitString} (hv : s.ctabv = true)
    (h : encodeFrom s.ctab s.cfg.ebufCap 0 [] s.ibuf = .ok e) :
    exec .encode s = .next (completed { s with ebuf := e } e.length) := by
  rw [exec, execEncode, if_neg (ne_false_of_eq_true hv), h, ← complete_eq_completed]

theorem exec_encode_of_error {s : State} {e : Raised} (hv : s.ctabv = true)
    (h : encodeFrom s.ctab s.cfg.ebufCap 0 [] s.ibuf = .error e) :
    exec .encode s = .next (State.raise { s with ebuf := [] } e) := by
  rw [exec, execEncode, if_neg (ne_false_of_eq_true hv), h]

/-- Settles O31: the loop goes through the codes of the whole input, or through those before the first Symbol that has none
or does not fit. -/
theorem encodeConcatenatesTheCodes : Obligations.EncodeConcatenatesTheCodes := by
  refine ⟨by decide, fun s => ⟨exec_encode_of_no_table, fun hv hc hf => ?_, fun before x after hv hi hc hf hx => ?_,
    fun before x after hv hi hc hf hx => ?_⟩⟩
  · exact exec_encode_of_ok hv (encodeFrom_complete hc hf)
  · have hstop : encodeFrom s.ctab s.cfg.ebufCap 0 [] s.ibuf = .error (raised .nosym before.length) := by
      rw [hi, encodeFrom_append hc hf, encodeFrom_cons, if_pos hx, Nat.zero_add]
    rw [exec_encode_of_error hv hstop, raise_nosym]
  · rw [allCoded_append, allCoded_cons] at hc
    obtain ⟨hbefore, hcoded, -⟩ := hc
    have hstop : encodeFrom s.ctab s.cfg.ebufCap 0 [] s.ibuf = .error (raised .overflow before.length) := by
      have hlong : s.cfg.ebufCap < (encoded s.ctab before).length + (codeOf s.ctab x).length := by simpa using hx
      rw [hi, encodeFrom_append hbefore hf, encodeFrom_cons, if_neg hcoded, List.nil_append, if_pos hlong, Nat.zero_add]
    rw [exec_encode_of_error hv hstop, raise_overflow]

/-! ## ENCODE and the sequence of ENCSYMs -/

/-- While the codes of `l` fit, the sequence completes at every Symbol of `l` (R197). -/
theorem runAll_clre_encsym_take {l : List Byte} {s : State} (hv : s.ctabv = true) (hc : AllCoded s.ctab l)
    (hf : (encoded s.ctab l).length ≤ s.cfg.ebufCap) (k : Nat) :
    ∃ u, runAll (.clre :: (l.take k).map .encsym) s = some u ∧ Completed u := by
  rw [← List.take_append_drop k l, allCoded_append] at hc
  rw [← List.take_append_drop k l, encoded_append, List.length_append] at hf
  exact ⟨_, runAll_clre_encsym hv hc.1 (by omega), completed_complete _ _⟩

/-- Settles O32: the stretch ENCODE goes through is the whole input, or ends at the Symbol where ENCSYM faults too. -/
theorem encodeIsTheEncsymSequence : Obligations.EncodeIsTheEncsymSequence := by
  intro s t h
  rw [exec] at h
  rcases execEncode_cases s with ⟨hv, he⟩ | ⟨f, hv, hl, he⟩ | ⟨e, hv, hl, he⟩ <;> rw [he] at h <;> cases h
  · rw [raise_notab]
    refine ⟨fun hd => absurd hd (not_completed_faulted _ 7 0 (by decide) (by decide)),
      fun ht => absurd hv (ne_false_of_eq_true ht), fun _ => ⟨rfl, rfl, fun x after _ => ?_⟩⟩
    have hnext := exec_encsym_of_no_table (s := State.complete { s with ebuf := [] } 0) hv x
    exact ⟨_, _, rfl, completed_complete _ _, rfl, hnext, rfl, rfl⟩
  · refine ⟨fun hd => absurd hd (not_completed_raise _ _), fun _ _ => ⟨rfl, ?_⟩, fun hn => absurd hn (ne_false_of_eq_true hv)⟩
    obtain ⟨before, x, after, hi, hc, hf, hstop⟩ := encodeFrom_error (Nat.zero_le _) hl
    have hbefore := fun k (_ : k ≤ before.length) => runAll_clre_encsym_take hv hc hf k
    have hrun := runAll_clre_encsym hv hc hf
    rw [Nat.zero_add] at hstop
    rcases hstop with ⟨hx, rfl⟩ | ⟨hx, hlong, rfl⟩
    · rw [raise_nosym]
      exact ⟨before, x, after, _, _, 8, hi, hbefore, hrun, rfl, exec_encsym_of_uncoded hv hx, rfl, rfl, .inl ⟨rfl, rfl⟩⟩
    · rw [raise_overflow]
      have hfull : s.cfg.ebufCap < (encoded s.ctab before).length + (codeOf s.ctab x).length := by simpa using hlong
      exact ⟨before, x, after, _, _, 3, hi, hbefore, hrun, rfl, exec_encsym_of_full hv hx hfull, rfl, rfl, .inr ⟨rfl, rfl⟩⟩
  · obtain ⟨hc, rfl, hf⟩ := encodeFrom_ok (Nat.zero_le _) hl
    exact ⟨fun _ => ⟨runAll_clre_encsym hv hc hf, rfl, fun k _ => runAll_clre_encsym_take hv hc hf k⟩,
      fun _ hn => absurd (completed_complete _ _) hn, fun hn => absurd hn (ne_false_of_eq_true hv)⟩

end Sys2Proof.Machine
end

section
/-! SUPPORT. The bit packer (43_bit_packer.md, R212, R213, R216): what PACK answers, the last byte it writes, and the
stream read back from the artifact. -/

namespace Sys2Proof.Machine

open Sys2Proof.Safety

/-! ## The artifact -/

/-- Zeros after a stream are what reading past its end gives. -/
theorem getD_append_zeros (e : BitString) (n i : Nat) :
    (e ++ List.replicate n false).getD i false = e.getD i false := by
  rcases Nat.lt_or_ge i e.length with hi | hi
  · exact List.getD_append _ _ _ _ hi
  · rw [List.getD_append_right _ _ _ _ hi, List.getD_eq_getElem?_getD, List.getElem?_getD_replicate_default_eq,
      List.getD_eq_default _ _ hi]

/-- The bits of the last byte past the end of the stream are 0 (R213). -/
theorem packBits_last_padding (e : BitString) (b : Nat) (hb : b < padCount e.length) :
    ((packBits e).getD (1 + e.length / 8) 0).getLsbD b = false := by
  have hp := add_padCount e.length
  have hp8 := (padCount_bounds e.length).2
  have hbit := bitOfByte_packByte e (e.length / 8) (7 - b) (by omega)
  rw [bitOfByte, show 7 - (7 - b) = b by omega] at hbit
  rw [packBits_body e _ le_rfl, hbit, List.getD_eq_default _ _ (by omega)]

/-- The pad count and the number of bytes determine the length of the stream (R216). -/
theorem length_eq_of_packBits_eq {e f : BitString} (h : packBits e = packBits f) : e.length = f.length := by
  have hbytes := congrArg List.length h
  have hpad := congrArg (fun a => (a.getD 0 0).toNat) h
  simp only [packBits_length] at hbytes
  simp only [packBits_header, padByte_toNat] at hpad
  have he := add_padCount e.length
  have hf := add_padCount f.length
  omega

/-- With the length, the stream is read back from the artifact, as UNPACK does (R216). -/
theorem packBits_injective : Function.Injective packBits := by
  intro e f h
  calc e = unpackBits (packBits e) e.length := by rw [unpackBits_packBits e _ le_rfl, List.take_length]
    _ = unpackBits (packBits f) f.length := by rw [h, length_eq_of_packBits_eq h]
    _ = f := by rw [unpackBits_packBits f _ le_rfl, List.take_length]

/-! ## PACK -/

/-- PACK completes from every state (R212, R214). -/
theorem exec_pack (s : State) :
    exec .pack s = .next (completed
      { s with obuf := packBits s.ebuf, pad := BitVec.ofNat 8 (padCount s.elen), ebuf := [] } (s.elen / 8 + 2)) := by
  rw [exec, execPack_eq, complete_eq_completed, packBits_length, State.elen]

/-- Settles O33: PACK always answers with the artifact, whose body bytes hold the stream's bits and 0 past its end. -/
theorem packWritesTheArtifact : Obligations.PackWritesTheArtifact := by
  refine ⟨by decide, fun s => ⟨packBits s.ebuf, exec_pack s, packBits_length s.ebuf, ?_, fun k j hk hj => ?_⟩⟩
  · rw [packBits_header, padByte_toNat, padCount, State.elen]
  · rw [packBits_body s.ebuf k (Nat.le_of_lt_succ hk), getD_append_zeros]
    exact bitOfByte_packByte s.ebuf k j hj

/-- Settles O34: the pad count fills the stream up to whole bytes, and the bits it fills with are past the stream's end. -/
theorem packPaddingBound : Obligations.PackPaddingBound := by
  intro s t h
  rw [exec_pack] at h
  cases h
  obtain ⟨hp1, hp8⟩ := padCount_bounds s.ebuf.length
  have hp := add_padCount s.ebuf.length
  simp only [completed, State.elen, State.olen, packBits_length, padByte_toNat]
  refine ⟨hp1, hp8, packBits_header s.ebuf, by omega, by omega, fun b hb => ?_⟩
  rw [show s.ebuf.length / 8 + 2 - 1 = 1 + s.ebuf.length / 8 by omega]
  exact packBits_last_padding s.ebuf b hb

/-- Settles O35: both states hold the artifacts of their streams, and packing is injective. -/
theorem packIsInjectiveOnStreams : Obligations.PackIsInjectiveOnStreams := by
  intro s1 s2 t1 t2 h1 h2
  rw [exec_pack] at h1 h2
  cases h1
  cases h2
  exact packBits_injective.eq_iff

end Sys2Proof.Machine
end

section
/-! The bit unpacker (R232, R233): the equation of UNPACK, and the bits it reads of an artifact, whole or without its last
byte. -/

namespace Sys2Proof.Machine

open Sys2Proof.Safety

/-! ## UNPACK -/

/-- How many stream bits an artifact of `n` bytes with pad count `p` holds (R232). -/
def bodyBits (n p : Nat) : Nat := 8 * (n - 1) - p

theorem raise_short (s : State) (n : Nat) : s.raise (raised .short n) = faulted s 9 n := raise_eq_faulted s .short n

theorem raise_padcount (s : State) (n : Nat) : s.raise (raised .padcount n) = faulted s 10 n :=
  raise_eq_faulted s .padcount n

/-- UNPACK's tests in their order (R232). -/
theorem exec_unpack (s : State) :
    exec .unpack s =
      .next (if s.ilen < 2 then faulted { s with ebuf := [] } 9 s.ilen
        else if (s.ibuf.getD 0 0).toNat = 0 ∨ 8 < (s.ibuf.getD 0 0).toNat then
          faulted { s with ebuf := [] } 10 (s.ibuf.getD 0 0).toNat
        else if s.cfg.ebufCap < bodyBits s.ilen (s.ibuf.getD 0 0).toNat then faulted { s with ebuf := [] } 3 s.ilen
        else completed
          { s with ebuf := unpackBits s.ibuf (bodyBits s.ilen (s.ibuf.getD 0 0).toNat), pad := s.ibuf.getD 0 0 }
          (bodyBits s.ilen (s.ibuf.getD 0 0).toNat)) := by
  simp only [exec, execUnpack, raise_short, raise_padcount, raise_overflow, complete_eq_completed, Nat.lt_one_iff,
    ← apply_ite Host.Outcome.next, bodyBits]
  rfl

/-- UNPACK of an artifact with a pad count of 1 to 8 whose stream fits (R232). -/
theorem exec_unpack_of_fits {s : State} (hl : 2 ≤ s.ilen) (h1 : 1 ≤ (s.ibuf.getD 0 0).toNat)
    (h8 : (s.ibuf.getD 0 0).toNat ≤ 8) (hf : bodyBits s.ilen (s.ibuf.getD 0 0).toNat ≤ s.cfg.ebufCap) :
    exec .unpack s = .next (completed
      { s with ebuf := unpackBits s.ibuf (bodyBits s.ilen (s.ibuf.getD 0 0).toNat), pad := s.ibuf.getD 0 0 }
      (bodyBits s.ilen (s.ibuf.getD 0 0).toNat)) := by
  rw [exec_unpack, if_neg (Nat.not_lt.2 hl), if_neg (by omega), if_neg (Nat.not_lt.2 hf)]

/-- What a completed UNPACK has found and written (R232). -/
theorem exec_unpack_completed {s t : State} (h : exec .unpack s = .next t) (hd : Completed t) :
    2 ≤ s.ilen ∧ 1 ≤ (s.ibuf.getD 0 0).toNat ∧ (s.ibuf.getD 0 0).toNat ≤ 8 ∧
      t.ebuf = unpackBits s.ibuf (bodyBits s.ilen (s.ibuf.getD 0 0).toNat) := by
  rw [exec_unpack] at h
  cases h
  split at hd
  · exact absurd hd (not_completed_faulted _ 9 _ (by decide) (by decide))
  split at hd
  · exact absurd hd (not_completed_faulted _ 10 _ (by decide) (by decide))
  split at hd
  · exact absurd hd (not_completed_faulted _ 3 _ (by decide) (by decide))
  rename_i hl hp hf
  rw [if_neg hl, if_neg hp, if_neg hf]
  exact ⟨by omega, by omega, by omega, rfl⟩

/-- Settles O36: the bits are those `unpackBits` reads, whose number is the capacity test's. -/
theorem unpackStripsHeaderAndPadding : Obligations.UnpackStripsHeaderAndPadding := by
  refine ⟨by decide, fun s => ⟨unpackBits s.ibuf (bodyBits s.ilen (s.ibuf.getD 0 0).toNat), unpackBits_length _ _,
    fun i hi => ?_, ?_⟩⟩
  · rw [List.getD_eq_getElem _ _ hi, unpackBits_getElem, bitOfByte]
  · rw [unpackBits_length, exec_unpack]

theorem responseCode_answer_ne {c c' : Nat} (d : Nat) (hc : c < 16) (hne : c ≠ c') : responseCode (answer c d) ≠ c' := by
  rwa [responseCode_answer c d hc]

/-- Settles O37: at least one bit of the body is padding, so a body that fits the input buffer is, without it, within
`EBUF_CAP = 8*OBUF_CAP - 9`. -/
theorem unpackFitsWhenInputIsNoLarger : Obligations.UnpackFitsWhenInputIsNoLarger := by
  intro s t hs hcap h
  have hl := hs.ilen_le
  rw [exec_unpack] at h
  cases h
  split
  · exact ⟨_, rfl, responseCode_answer_ne _ (by decide) (by decide)⟩
  split
  · exact ⟨_, rfl, responseCode_answer_ne _ (by decide) (by decide)⟩
  split
  · simp only [bodyBits, Config.ebufCap] at *
    omega
  · exact ⟨_, rfl, responseCode_answer_ne _ (by decide) (by decide)⟩

/-! ## Packing and unpacking -/

/-- The artifact of a stream holds as many bits as the stream (R212, R232). -/
theorem bodyBits_packBits (e : BitString) : bodyBits (packBits e).length ((packBits e).getD 0 0).toNat = e.length := by
  have hp := add_padCount e.length
  rw [packBits_header, padByte_toNat, packBits_length, bodyBits]
  omega

/-- UNPACK gives a packed stream back (R233). -/
theorem exec_unpack_packed {u : State} {e : BitString} (hi : u.ibuf = packBits e) (hf : e.length ≤ u.cfg.ebufCap) :
    exec .unpack u =
      .next (completed { u with ebuf := e, pad := BitVec.ofNat 8 (padCount e.length) } e.length) := by
  obtain ⟨hp1, hp8⟩ := padCount_bounds e.length
  have hheader : u.ibuf.getD 0 0 = BitVec.ofNat 8 (padCount e.length) := hi ▸ packBits_header e
  have hbits : bodyBits u.ilen (u.ibuf.getD 0 0).toNat = e.length := by rw [State.ilen, hi, bodyBits_packBits]
  have hread : unpackBits u.ibuf e.length = e := by rw [hi, unpackBits_packBits e _ le_rfl, List.take_length]
  rw [exec_unpack_of_fits, hbits, hread, hheader]
  · rw [State.ilen, hi, packBits_length]
    omega
  · rwa [hheader, padByte_toNat]
  · rwa [hheader, padByte_toNat]
  · rwa [hbits]

/-- The bits of a body byte that is unpacked and packed again: those of the stream are kept, the others become 0
(R233). -/
theorem packBits_unpackBits_getLsbD (a : List Byte) {n k b : Nat} (hk : k ≤ n / 8) (hb : b < 8) :
    ((packBits (unpackBits a n)).getD (1 + k) 0).getLsbD b =
      if n ≤ 8 * k + (7 - b) then false else (a.getD (1 + k) 0).getLsbD b := by
  have hbit := bitOfByte_packByte (unpackBits a n) k (7 - b) (by omega)
  rw [bitOfByte, show 7 - (7 - b) = b by omega] at hbit
  rw [packBits_body _ _ (by rwa [unpackBits_length]), hbit]
  split
  · exact List.getD_eq_default _ _ (by rwa [unpackBits_length])
  · rw [List.getD_eq_getElem _ _ (by rw [unpackBits_length]; omega), unpackBits_getElem, bitOfByte]
    congr 3 <;> omega

/-- Settles O38: UNPACK reads back the bits PACK has packed, and PACK computes the pad count UNPACK has removed. -/
theorem unpackUndoesPack : Obligations.UnpackUndoesPack := by
  refine ⟨fun s p u hf hp hi hcfg => ?_, fun u v p hv hd hp => ?_⟩
  · rw [exec_pack] at hp
    cases hp
    exact exec_unpack_packed hi (hcfg ▸ hf)
  · obtain ⟨hl, h1, h8, he⟩ := exec_unpack_completed hv hd
    rw [exec_pack, he] at hp
    cases hp
    generalize hn : bodyBits u.ilen (u.ibuf.getD 0 0).toNat = n
    rw [bodyBits] at hn
    simp only [completed, State.olen, packBits_length, packBits_header, unpackBits_length]
    refine ⟨by omega, BitVec.eq_of_toNat_eq ?_, fun k b hk hlast hb => ?_⟩
    · rw [padByte_toNat, padCount]
      omega
    · obtain ⟨k, rfl⟩ := Nat.exists_eq_add_of_le hk
      rw [packBits_unpackBits_getLsbD u.ibuf (by omega) hb]
      exact if_congr (by omega) rfl rfl

end Sys2Proof.Machine
end

section
/-! DECODE (R240 to R244). Under a valid table the walk goes through a stream code by code, whatever the form of the tree:
`decodeFrom_code` and `decodeFrom_inside` say so once, and matching against the inverse table (R241) does the same. -/

namespace Sys2Proof.Machine

open Sys2Proof.Safety

/-! ## The branches of DECODE -/

theorem raise_leftover (s : State) (n : Nat) : s.raise (raised .leftover n) = faulted s 13 n :=
  raise_eq_faulted s .leftover n

theorem raise_nocode (s : State) (n : Nat) : s.raise (raised .nocode n) = faulted s 12 n := raise_eq_faulted s .nocode n

theorem raise_notree (s : State) (n : Nat) : s.raise (raised .notree n) = faulted s 11 n := raise_eq_faulted s .notree n

theorem exec_decode_of_no_table {s : State} (hv : s.ctabv = false) :
    exec .decode s = .next (faulted { s with obuf := [] } 7 0) := by
  rw [exec, execDecode, if_pos hv, raise_notab]

section
variable {s : State} (hv : s.ctabv = true)
include hv

theorem exec_decode_of_no_bits (he : s.ebuf = []) : exec .decode s = .next (completed { s with obuf := [] } 0) := by
  rw [exec, execDecode, if_neg (ne_false_of_eq_true hv), if_pos (by rw [State.elen, he, List.length_nil]),
    complete_eq_completed]

theorem exec_decode_of_no_tree (he : s.ebuf ≠ []) (hr : s.rootv = false) :
    exec .decode s = .next (faulted { s with obuf := [] } 11 s.elen) := by
  rw [exec, execDecode, if_neg (ne_false_of_eq_true hv), if_neg (mt List.length_eq_zero_iff.1 he), if_pos hr, raise_notree]

theorem exec_decode_of_ok (he : s.ebuf ≠ []) (hr : s.rootv = true) {out : List Byte}
    (h : decodeBits s.tree s.root s.cfg.obufCap s.ebuf = .ok out) :
    exec .decode s = .next (completed { s with obuf := out } out.length) := by
  rw [exec, execDecode, if_neg (ne_false_of_eq_true hv), if_neg (mt List.length_eq_zero_iff.1 he),
    if_neg (ne_false_of_eq_true hr), h, ← complete_eq_completed]

theorem exec_decode_of_error (he : s.ebuf ≠ []) (hr : s.rootv = true) {e : Raised}
    (h : decodeBits s.tree s.root s.cfg.obufCap s.ebuf = .error e) :
    exec .decode s = .next (State.raise { s with obuf := [] } e) := by
  rw [exec, execDecode, if_neg (ne_false_of_eq_true hv), if_neg (mt List.length_eq_zero_iff.1 he),
    if_neg (ne_false_of_eq_true hr), h]

end

/-! ## Code by code -/

/-- DECODE between two codes, at bit position `i` with `out` written (R240). -/
def decodeFrom (t : Tree) (root : NodeIdx) (cap i : Nat) (out : List Byte) (e : BitString) : Except Raised (List Byte) :=
  match walkNode t root with
  | .leaf sym => decodeSingle cap sym i out e
  | .internal left right => decodeWalk t cap left right i left right 0 out e

theorem decodeBits_eq_decodeFrom (t : Tree) (root : NodeIdx) (cap : Nat) (e : BitString) :
    decodeBits t root cap e = decodeFrom t root cap 0 [] e := rfl

theorem decodeFrom_leaf {t : Tree} {root : NodeIdx} {sym : Byte} (h : nodeAt t root = some (.leaf sym)) (cap i : Nat)
    (out : List Byte) (e : BitString) : decodeFrom t root cap i out e = decodeSingle cap sym i out e := by
  rw [decodeFrom, walkNode_of_loaded h]

theorem decodeFrom_internal {t : Tree} {root l r : NodeIdx} (h : nodeAt t root = some (.internal l r)) (cap i : Nat)
    (out : List Byte) (e : BitString) : decodeFrom t root cap i out e = decodeWalk t cap l r i l r 0 out e := by
  rw [decodeFrom, walkNode_of_loaded h]

theorem decodeFrom_nil (t : Tree) (root : NodeIdx) (cap i : Nat) (out : List Byte) :
    decodeFrom t root cap i out [] = .ok out := by
  rw [decodeFrom]
  split
  · rfl
  · rfl

/-- Under a single-leaf tree every code is "0" (R111). -/
theorem code_of_single {tab : CodeTable} {sym x : Byte} (ht : IsTableOf tab (HTree.leaf sym).codes)
    (hx : codeOf tab x ≠ []) : x = sym ∧ codeOf tab x = [false] := by
  simpa [HTree.codes] using mem_codes_of_coded ht hx

section
variable {t : Tree} {root : NodeIdx} {h : HTree} {tab : CodeTable}
variable (hw : WellFormedTree t root h) (ht : IsTableOf tab h.codes)
include hw ht

/-- DECODE goes through a whole code and writes its Symbol, or finds the output full at the code's last bit. -/
theorem decodeFrom_code {x : Byte} (hx : codeOf tab x ≠ []) (cap i : Nat) (out : List Byte) (rest : BitString) :
    decodeFrom t root cap i out (codeOf tab x ++ rest) =
      if out.length = cap then .error (raised .overflow (i + (codeOf tab x).length - 1))
      else decodeFrom t root cap (i + (codeOf tab x).length) (out ++ [x]) rest := by
  cases hw.1 with
  | leaf hn =>
    obtain ⟨rfl, hcode⟩ := code_of_single ht hx
    simp [decodeFrom_leaf hn, hcode, decodeSingle]
  | node hn hl hr =>
    simp only [decodeFrom_internal hn]
    exact decodeWalk_code hl hr (mem_codes_of_coded ht hx) cap _ _ i 0 out rest

/-- DECODE of bits that end inside a code has them left over. -/
theorem decodeFrom_inside {x : Byte} {left : BitString} (hne : left ≠ []) (hp : left <+: codeOf tab x)
    (hin : left ≠ codeOf tab x) (cap i : Nat) (out : List Byte) :
    decodeFrom t root cap i out left = .error (raised .leftover left.length) := by
  have hx : codeOf tab x ≠ [] := fun h => hne (List.prefix_nil.1 (h ▸ hp))
  have hpos := List.length_pos_of_ne_nil hne
  cases hw.1 with
  | leaf hn =>
    obtain ⟨-, hcode⟩ := code_of_single ht hx
    rw [hcode] at hp hin
    exact absurd (hp.eq_of_length_le hpos) hin
  | node hn hl hr =>
    rw [decodeFrom_internal hn, decodeWalk_inside hl hr (mem_codes_of_coded ht hx) hp hin cap _ _ i 0 (by omega),
      Nat.zero_add]

/-- DECODE goes through whole codes whose Symbols fit the output, and on from there. -/
theorem decodeFrom_encoded {syms : List Byte} (hc : AllCoded tab syms) {cap : Nat} (i : Nat) {out : List Byte}
    (hf : out.length + syms.length ≤ cap) (rest : BitString) :
    decodeFrom t root cap i out (encoded tab syms ++ rest) =
      decodeFrom t root cap (i + (encoded tab syms).length) (out ++ syms) rest := by
  induction syms generalizing i out with
  | nil => simp
  | cons x syms ih =>
    rw [allCoded_cons] at hc
    rw [List.length_cons] at hf
    rw [encoded_cons, List.append_assoc, decodeFrom_code hw ht hc.1, if_neg (by omega), ih hc.2 _ (by simp; omega)]
    simp [Nat.add_assoc]

end

/-! ## DECODE under a valid table -/

section
variable {s : State} (hv : s.ctabv = true) (htab : TableOfCodebook s)
include htab

/-- Under a valid table only the Symbols of a tree have codes (R164). -/
theorem tree_of_coded {x : Byte} (hx : codeOf s.ctab x ≠ []) :
    s.rootv = true ∧ ∃ h, WellFormedTree s.tree s.root h ∧ IsTableOf s.ctab h.codes := by
  obtain ⟨hempty, htree⟩ := htab
  cases hr : s.rootv with
  | false => exact absurd (hempty hr x) hx
  | true => exact ⟨rfl, htree hr⟩

include hv

/-- DECODE delivers the Symbols of whole codes that fit the output (R240). -/
theorem exec_decode_encoded {syms : List Byte} (hc : AllCoded s.ctab syms) (he : s.ebuf = encoded s.ctab syms)
    (hf : syms.length ≤ s.cfg.obufCap) :
    exec .decode s = .next (completed { s with obuf := syms } syms.length) := by
  cases syms with
  | nil => exact exec_decode_of_no_bits hv he
  | cons x syms =>
    have hx := (allCoded_cons _ _ _).1 hc |>.1
    obtain ⟨hr, h, hw, ht⟩ := tree_of_coded htab hx
    refine exec_decode_of_ok hv ?_ hr ?_
    · rw [he, encoded_cons]
      exact List.append_ne_nil_of_left_ne_nil hx _
    · have hwalk := decodeFrom_encoded hw ht hc 0 (out := []) (by simpa using hf) []
      rw [List.append_nil, ← he, decodeFrom_nil] at hwalk
      exact hwalk

/-- DECODE of whole codes and then the inside of one has those bits left over (R244). -/
theorem exec_decode_inside {syms : List Byte} {x : Byte} {left : BitString} (hc : AllCoded s.ctab syms)
    (he : s.ebuf = encoded s.ctab syms ++ left) (hne : left ≠ []) (hp : left <+: codeOf s.ctab x)
    (hin : left ≠ codeOf s.ctab x) (hf : syms.length ≤ s.cfg.obufCap) :
    exec .decode s = .next (faulted { s with obuf := [] } 13 left.length) := by
  obtain ⟨hr, h, hw, ht⟩ := tree_of_coded htab fun h => hne (List.prefix_nil.1 (h ▸ hp))
  rw [exec_decode_of_error hv (he ▸ List.append_ne_nil_of_right_ne_nil _ hne) hr, raise_leftover]
  rw [decodeBits_eq_decodeFrom, he, decodeFrom_encoded hw ht hc 0 (by simpa using hf),
    decodeFrom_inside hw ht hne hp hin]

/-- DECODE of one Symbol more than the output takes faults at the last bit of that Symbol's code (R242). -/
theorem exec_decode_full {syms : List Byte} {x : Byte} {rest : BitString} (hc : AllCoded s.ctab (syms ++ [x]))
    (he : s.ebuf = encoded s.ctab (syms ++ [x]) ++ rest) (hf : syms.length = s.cfg.obufCap) :
    exec .decode s =
      .next (faulted { s with obuf := [] } 3 ((encoded s.ctab (syms ++ [x])).length - 1)) := by
  rw [allCoded_append, allCoded_cons] at hc
  obtain ⟨hsyms, hx, -⟩ := hc
  obtain ⟨hr, h, hw, ht⟩ := tree_of_coded htab hx
  have hcode : encoded s.ctab (syms ++ [x]) = encoded s.ctab syms ++ codeOf s.ctab x := by simp
  rw [hcode] at he ⊢
  rw [exec_decode_of_error hv (by simp [he, hx]) hr, raise_overflow]
  rw [decodeBits_eq_decodeFrom, he, List.append_assoc, decodeFrom_encoded hw ht hsyms 0 (by simpa using hf.le),
    decodeFrom_code hw ht hx, if_pos (by simpa using hf), Nat.zero_add, List.length_append]

end

/-- DECODE of a 1 bit under a single-leaf tree, after 0 bits that fit the output (R243). -/
theorem exec_decode_one {s : State} (hv : s.ctabv = true) (hr : s.rootv = true) {sym : Byte}
    (hn : nodeAt s.tree s.root = some (.leaf sym)) {zeros : Nat} {rest : BitString}
    (he : s.ebuf = List.replicate zeros false ++ true :: rest) (hf : zeros ≤ s.cfg.obufCap) :
    exec .decode s = .next (faulted { s with obuf := [] } 12 zeros) := by
  rw [exec_decode_of_error hv (by simp [he]) hr, raise_nocode]
  rw [decodeBits_eq_decodeFrom, decodeFrom_leaf hn, he, decodeSingle_zeros _ _ _ _ _ _ (by simpa using hf),
    decodeSingle_one, Nat.zero_add]

/-- Settles O39: the branches of DECODE before the walk, and the walk on each kind of stream. -/
theorem decodeOutcomeByStream : Obligations.DecodeOutcomeByStream := by
  refine ⟨by decide, fun s hs => ⟨exec_decode_of_no_table, exec_decode_of_no_bits, exec_decode_of_no_tree,
    fun syms hv => exec_decode_encoded hv (hs.table hv), fun syms x left hv => exec_decode_inside hv (hs.table hv),
    fun syms x rest hv => exec_decode_full hv (hs.table hv), fun sym zeros rest hv hr hn he hf => ?_⟩⟩
  exact exec_decode_one hv hr hn he hf

/-! ## Matching against the inverse code table -/

theorem codeOf_of_matchCode {tab : CodeTable} {cand : BitString} {sym : Byte} (h : matchCode tab cand = some sym) :
    codeOf tab sym = cand := by
  simpa using List.find?_some h

/-- What the table match has read when it completes: the codes of the Symbols it gives (R231). -/
theorem decodeByTable_some {tab : CodeTable} {cand e : BitString} {out res : List Byte}
    (h : decodeByTable tab cand out e = some res) :
    ∃ syms, res = out ++ syms ∧ AllCoded tab syms ∧ cand ++ e = encoded tab syms := by
  induction e generalizing cand out with
  | nil =>
    simp only [decodeByTable, Option.ite_none_right_eq_some, Option.some.injEq] at h
    obtain ⟨rfl, rfl⟩ := h
    exact ⟨[], by simp⟩
  | cons b e ih =>
    rw [decodeByTable] at h
    split at h
    next sym hm =>
      have hcode := codeOf_of_matchCode hm
      obtain ⟨syms, rfl, hc, he⟩ := ih h
      rw [List.nil_append] at he
      exact ⟨sym :: syms, by simp, by simp [hcode, hc], by simp [hcode, he]⟩
    next =>
      obtain ⟨syms, rfl, hc, he⟩ := ih h
      exact ⟨syms, rfl, hc, by simpa using he⟩

section
variable {tab : CodeTable} (hp : PrefixFree tab)
include hp

/-- A candidate that begins a code matches no Symbol but that code's, and that one only when it is the whole code. -/
theorem eq_of_matchCode {cand rest : BitString} {x sym : Byte} (hx : codeOf tab x = cand ++ rest) (hne : cand ≠ [])
    (hm : matchCode tab cand = some sym) : sym = x ∧ rest = [] := by
  have hsym := codeOf_of_matchCode hm
  have heq : sym = x := by
    by_contra hdiff
    exact hp sym x hdiff (hsym ▸ hne) (hx ▸ List.append_ne_nil_of_left_ne_nil hne rest)
      (by rw [hsym, hx]; exact List.prefix_append _ _)
  subst heq
  exact ⟨rfl, by simpa [hsym] using hx⟩

/-- A code matches its Symbol. -/
theorem matchCode_codeOf {x : Byte} (hx : codeOf tab x ≠ []) : matchCode tab (codeOf tab x) = some x := by
  cases hm : matchCode tab (codeOf tab x) with
  | none =>
    have hmem : x ∈ (List.range 256).map (BitVec.ofNat 8) := List.mem_map.2 ⟨x.toNat, List.mem_range.2 x.isLt, by simp⟩
    simpa using List.find?_eq_none.1 hm x hmem
  | some sym => rw [(eq_of_matchCode hp (List.append_nil _).symm hx hm).1]

/-- The table match goes through the rest of a code of which the candidate is the beginning. -/
theorem decodeByTable_code {x : Byte} {cand p : BitString} (hx : codeOf tab x = cand ++ p) (hne : p ≠ [])
    (out : List Byte) (rest : BitString) :
    decodeByTable tab cand out (p ++ rest) = decodeByTable tab [] (out ++ [x]) rest := by
  induction p generalizing cand with
  | nil => exact absurd rfl hne
  | cons b p ih =>
    have hstep : codeOf tab x = (cand ++ [b]) ++ p := by simpa using hx
    rw [List.cons_append, decodeByTable]
    cases p with
    | nil =>
      rw [List.append_nil] at hstep
      rw [← hstep, matchCode_codeOf hp (by simp [hstep])]
      rfl
    | cons b' p =>
      cases hm : matchCode tab (cand ++ [b]) with
      | none => exact ih hstep (by simp)
      | some sym => simpa using (eq_of_matchCode hp hstep (by simp) hm).2

/-- The table match gives the Symbols of whole codes. -/
theorem decodeByTable_encoded {syms : List Byte} (hc : AllCoded tab syms) (out : List Byte) :
    decodeByTable tab [] out (encoded tab syms) = some (out ++ syms) := by
  induction syms generalizing out with
  | nil => simp [decodeByTable]
  | cons x syms ih =>
    rw [allCoded_cons] at hc
    rw [encoded_cons, decodeByTable_code hp (List.nil_append _).symm hc.1, ih hc.2, List.append_assoc]
    rfl

/-- The table match completes exactly on whole codes, with their Symbols (R231, R241). -/
theorem decodeByTable_eq_some_iff {e : BitString} {out : List Byte} :
    decodeByTable tab [] [] e = some out ↔ AllCoded tab out ∧ e = encoded tab out := by
  constructor
  · intro h
    obtain ⟨syms, rfl, hc, he⟩ := decodeByTable_some h
    exact ⟨hc, he⟩
  · rintro ⟨hc, rfl⟩
    exact decodeByTable_encoded hp hc []

end

/-- Settles O40: both complete exactly on whole codes, DECODE only when their Symbols fit the output. -/
theorem treeWalkEqualsTableMatch : Obligations.TreeWalkEqualsTableMatch := by
  intro s t hs hv h out
  rw [decodeByTable_eq_some_iff (hs.prefixFree hv)]
  constructor
  · rintro ⟨hd, rfl⟩
    obtain ⟨-, hc, he⟩ := execDecode_ok hs h hd
    obtain ⟨hcfg, -⟩ := commandsWriteOnlyTheirComponents .decode s t h
    exact ⟨⟨hc, he⟩, hcfg ▸ (exec_keeps_inv hs h).olen_le⟩
  · rintro ⟨⟨hc, he⟩, hf⟩
    rw [exec_decode_encoded hv (hs.table hv) hc he hf] at h
    cases h
    exact ⟨completed_completed _ _, rfl⟩

end Sys2Proof.Machine
end

section
/-! Whole runs: the round trip (R245), and an artifact without its last byte (R246). A stream cut anywhere is whole codes,
or whole codes and the inside of one, and DECODE of the two is known. -/

namespace Sys2Proof.Machine

open Sys2Proof.Safety

/-! ## The round trip -/

theorem exec_encode_of_coded {s : State} (hv : s.ctabv = true) (hc : AllCoded s.ctab s.ibuf)
    (hf : (encoded s.ctab s.ibuf).length ≤ s.cfg.ebufCap) :
    exec .encode s = .next (completed { s with ebuf := encoded s.ctab s.ibuf } (encoded s.ctab s.ibuf).length) :=
  exec_encode_of_ok hv (encodeFrom_complete hc hf)

/-- PUTB of bytes that fit, from a state whose answer is the input's length: they are appended, and that is still the
answer (R267). -/
theorem runAll_putb {l : List Byte} {s : State} (hf : s.ilen + l.length ≤ s.cfg.ibufCap) :
    runAll (l.map .putb) (completed s s.ilen) =
      some (completed { s with ibuf := s.ibuf ++ l } (s.ilen + l.length)) := by
  induction l generalizing s with
  | nil => simp
  | cons b l ih =>
    rw [List.length_cons] at hf
    have hb : exec (.putb b) (completed s s.ilen) =
        .next (completed { s with ibuf := s.ibuf ++ [b] } (s.ibuf ++ [b]).length) := by
      have hroom : (completed s s.ilen).ilen ≠ (completed s s.ilen).cfg.ibufCap := by
        simp only [completed, State.ilen] at hf ⊢
        omega
      rw [exec, execPutb, if_neg hroom, complete_eq_completed, List.length_append, List.length_singleton]
      rfl
    rw [List.map_cons, runAll_cons hb, ih (s := { s with ibuf := s.ibuf ++ [b] })
      (by simp only [State.ilen, List.length_append, List.length_singleton] at hf ⊢; omega)]
    simp [State.ilen, Nat.add_assoc, Nat.add_comm 1]

/-- CLRIN and PUTB of bytes that fit make them the input (R266, R267). -/
theorem runAll_clrin_putb {l : List Byte} {s : State} (hf : l.length ≤ s.cfg.ibufCap) :
    runAll (.clrin :: l.map .putb) s = some (completed { s with ibuf := l } l.length) := by
  have hclrin : exec .clrin s = .next (completed { s with ibuf := [] } 0) :=
    congrArg Host.Outcome.next (complete_eq_completed _ 0)
  have h := runAll_putb (s := { s with ibuf := [] }) (l := l) (by simpa [State.ilen] using hf)
  rw [runAll_cons hclrin]
  simpa [State.ilen] using h

/-- Decompressing what a state holds packed in its output: carried over to the input, unpacked and decoded (R245). -/
theorem carry_unpack_decode {s : State} {syms : List Byte} (hv : s.ctabv = true) (htab : TableOfCodebook s)
    (hc : AllCoded s.ctab syms) (ho : s.obuf = packBits (encoded s.ctab syms))
    (hf : (encoded s.ctab syms).length ≤ s.cfg.ebufCap) (hout : syms.length ≤ s.cfg.obufCap)
    (hin : s.olen ≤ s.cfg.ibufCap) :
    ∃ t u v, runAll (.clrin :: s.obuf.map .putb) s = some t ∧ Completed t ∧ t.ibuf = s.obuf ∧
      exec .unpack t = .next u ∧ Completed u ∧ u.ebuf = encoded s.ctab syms ∧
      exec .decode u = .next v ∧ Completed v ∧ v.obuf = syms ∧ v.err = s.err := by
  have hunpack := exec_unpack_packed (u := completed { s with ibuf := s.obuf } s.olen) ho hf
  refine ⟨_, _, _, runAll_clrin_putb hin, completed_completed _ _, rfl, hunpack, completed_completed _ _, rfl,
    exec_decode_encoded ?_ ?_ ?_ rfl hout, completed_completed _ _, rfl, rfl⟩
  · exact hv
  · exact htab
  · exact hc

/-- Settles O42: every test of the five commands is met, and each hands on what the next one reads. -/
theorem compressThenDecompressRoundTrips : Obligations.CompressThenDecompressRoundTrips := by
  intro s hs hv hc hf hout hin
  rw [← packBits_length] at hin
  have hpack := exec_pack (completed { s with ebuf := encoded s.ctab s.ibuf } (encoded s.ctab s.ibuf).length)
  obtain ⟨t3, t4, t5, hrest⟩ := carry_unpack_decode (s := completed { s with
    ebuf := [], obuf := packBits (encoded s.ctab s.ibuf),
    pad := BitVec.ofNat 8 (padCount (encoded s.ctab s.ibuf).length) } ((encoded s.ctab s.ibuf).length / 8 + 2))
    hv (hs.table hv) hc rfl hf hout hin
  exact ⟨_, _, t3, t4, t5, exec_encode_of_coded hv hc hf, completed_completed _ _, rfl, hpack, completed_completed _ _,
    hrest⟩

/-! ## A stream cut short -/

/-- A stream of codes cut anywhere is whole codes, or whole codes and the inside of one. -/
theorem encoded_take (tab : CodeTable) (syms : List Byte) (n : Nat) :
    ∃ pre post, syms = pre ++ post ∧
      ((encoded tab syms).take n = encoded tab pre ∨
       ∃ x left, (encoded tab syms).take n = encoded tab pre ++ left ∧ left ≠ [] ∧ left <+: codeOf tab x ∧
        left ≠ codeOf tab x) := by
  induction syms generalizing n with
  | nil => exact ⟨[], [], rfl, .inl (by simp)⟩
  | cons x syms ih =>
    rcases Nat.lt_or_ge n (codeOf tab x).length with hlt | hge
    · have htake : (encoded tab (x :: syms)).take n = (codeOf tab x).take n := by
        rw [encoded_cons, List.take_append_of_le_length hlt.le]
      refine ⟨[], x :: syms, rfl, ?_⟩
      rcases Nat.eq_zero_or_pos n with rfl | hpos
      · exact .inl (by simp)
      · refine .inr ⟨x, (codeOf tab x).take n, by simpa using htake, ?_, List.take_prefix _ _, fun h => ?_⟩
        · exact List.ne_nil_of_length_pos (by rw [List.length_take]; omega)
        · have := congrArg List.length h
          rw [List.length_take] at this
          omega
    · obtain ⟨pre, post, rfl, hcut⟩ := ih (n - (codeOf tab x).length)
      have htake : (encoded tab (x :: (pre ++ post))).take n =
          codeOf tab x ++ (encoded tab (pre ++ post)).take (n - (codeOf tab x).length) := by
        rw [encoded_cons, List.take_append, List.take_of_length_le hge]
      refine ⟨x :: pre, post, rfl, ?_⟩
      rw [htake]
      rcases hcut with hcut | ⟨y, left, hcut, hleft⟩
      · exact .inl (by rw [hcut, encoded_cons])
      · exact .inr ⟨y, left, by rw [hcut, encoded_cons, List.append_assoc], hleft⟩

section
variable {v w : State} {syms : List Byte} {n : Nat}
variable (hw : exec .decode v = .next w) (hv : v.ctabv = true) (htab : TableOfCodebook v)
variable (hc : AllCoded v.ctab syms) (hf : syms.length ≤ v.cfg.obufCap)
variable (he : v.ebuf = (encoded v.ctab syms).take ((encoded v.ctab syms).length - n))
include hw hv htab hc hf he

/-- DECODE of a stream less its last `n` bits, when those are the codes of the last `m` Symbols, delivers the others. -/
theorem decode_of_cut_at_code {m : Nat} (hm : (encoded v.ctab (syms.drop (syms.length - m))).length = n) :
    w = completed { v with obuf := syms.take (syms.length - m) } (syms.take (syms.length - m)).length := by
  have hsplit := List.take_append_drop (syms.length - m) syms
  have hcoded : AllCoded v.ctab (syms.take (syms.length - m)) := ((allCoded_append _ _ _).1 (hsplit ▸ hc)).1
  have hbits : v.ebuf = encoded v.ctab (syms.take (syms.length - m)) := by
    have hwhole := encoded_append v.ctab (syms.take (syms.length - m)) (syms.drop (syms.length - m))
    rw [hsplit] at hwhole
    rw [he, hwhole, List.length_append, hm, Nat.add_sub_cancel, List.take_left]
  have hfits : (syms.take (syms.length - m)).length ≤ v.cfg.obufCap := (List.length_take_le' _ _).trans hf
  rw [exec_decode_encoded hv htab hcoded hbits hfits] at hw
  exact (Host.Outcome.next.inj hw).symm

/-- The last `n` bits of the stream are the codes of the last Symbols, or DECODE without them raises `E_LEFTOVER` (R244,
R246). -/
theorem decode_of_cut (hpos : 0 < n) (hle : n ≤ (encoded v.ctab syms).length) :
    (∃ m, 1 ≤ m ∧ m ≤ syms.length ∧ (encoded v.ctab (syms.drop (syms.length - m))).length = n) ∨
    ∃ left, w = faulted { v with obuf := [] } 13 left := by
  obtain ⟨pre, post, rfl, hcut⟩ := encoded_take v.ctab syms ((encoded v.ctab syms).length - n)
  rw [List.length_append] at hf
  rcases hcut with hcut | ⟨x, left, hcut, hne, hp, hin⟩
  · have hlast : (encoded v.ctab post).length = n := by
      have hlen := congrArg List.length hcut
      simp only [encoded_append, List.length_append, List.length_take] at hlen hle
      omega
    have hpost : post ≠ [] := by
      rintro rfl
      exact hpos.ne hlast
    refine .inl ⟨post.length, List.length_pos_of_ne_nil hpost, by simp, ?_⟩
    rwa [List.length_append, Nat.add_sub_cancel, List.drop_left]
  · rw [exec_decode_inside hv htab ((allCoded_append _ _ _).1 hc).1 (he.trans hcut) hne hp hin (by omega)] at hw
    exact .inr ⟨_, (Host.Outcome.next.inj hw).symm⟩

/-- What DECODE does on a stream less its last `n` bits (R246). -/
theorem decode_of_cut_outcome (hpos : 0 < n) (hle : n ≤ (encoded v.ctab syms).length) :
    (Completed w ↔ ∃ m, 1 ≤ m ∧ m ≤ syms.length ∧ (encoded v.ctab (syms.drop (syms.length - m))).length = n) ∧
    (∀ m, 1 ≤ m → m ≤ syms.length → (encoded v.ctab (syms.drop (syms.length - m))).length = n →
      w.obuf = syms.take (syms.length - m)) ∧
    (¬ Completed w → ∃ r, w.rsp = some r ∧ responseCode r = 13 ∧ w.obuf = []) := by
  have hcompletes : (∃ m, 1 ≤ m ∧ m ≤ syms.length ∧ (encoded v.ctab (syms.drop (syms.length - m))).length = n) →
      Completed w := by
    rintro ⟨m, -, -, hm⟩
    rw [decode_of_cut_at_code hw hv htab hc hf he hm]
    exact completed_completed _ _
  refine ⟨⟨fun hd => ?_, hcompletes⟩, fun m _ _ hm => ?_, fun hnd => ?_⟩
  · rcases decode_of_cut hw hv htab hc hf he hpos hle with hm | ⟨left, rfl⟩
    · exact hm
    · exact absurd hd (not_completed_faulted _ 13 left (by decide) (by decide))
  · rw [decode_of_cut_at_code hw hv htab hc hf he hm]
    rfl
  · rcases decode_of_cut hw hv htab hc hf he hpos hle with hm | ⟨left, rfl⟩
    · exact absurd (hcompletes hm) hnd
    · exact ⟨_, rfl, responseCode_answer 13 left (by decide), rfl⟩

end

/-! ## An artifact without its last byte -/

/-- Reading bits reads no byte past the last of them. -/
theorem unpackBits_dropLast {a : List Byte} {n : Nat} (h : n ≤ 8 * (a.length - 2)) :
    unpackBits a.dropLast n = unpackBits a n := by
  apply List.ext_getElem
  · simp
  · intro i h1 h2
    rw [unpackBits_length] at h2
    rw [unpackBits_getElem, unpackBits_getElem, List.dropLast_eq_take, List.getD_eq_getElem?_getD,
      List.getD_eq_getElem?_getD, List.getElem?_take_of_lt (by omega)]

/-- UNPACK of an artifact of three or more bytes without its last one: the stream less its last 8 bits (R246). -/
theorem exec_unpack_truncated {u : State} {e : BitString} (hi : u.ibuf = (packBits e).dropLast) (h8 : 8 ≤ e.length)
    (hf : e.length ≤ u.cfg.ebufCap) :
    exec .unpack u = .next (completed
      { u with ebuf := e.take (e.length - 8), pad := BitVec.ofNat 8 (padCount e.length) } (e.length - 8)) := by
  obtain ⟨hp1, hp8⟩ := padCount_bounds e.length
  have hp := add_padCount e.length
  have hlen : u.ilen = e.length / 8 + 1 := by
    rw [State.ilen, hi, List.length_dropLast, packBits_length]
    rfl
  have hheader : u.ibuf.getD 0 0 = BitVec.ofNat 8 (padCount e.length) := by
    rw [hi, List.dropLast_eq_take, List.getD_eq_getElem?_getD,
      List.getElem?_take_of_lt (by rw [packBits_length]; omega), ← List.getD_eq_getElem?_getD, packBits_header]
  have hbits : bodyBits u.ilen (u.ibuf.getD 0 0).toNat = e.length - 8 := by
    rw [hheader, padByte_toNat, hlen, bodyBits]
    omega
  have hread : unpackBits u.ibuf (e.length - 8) = e.take (e.length - 8) := by
    rw [hi, unpackBits_dropLast (by rw [packBits_length]; omega), unpackBits_packBits e _ (Nat.sub_le _ _)]
  rw [exec_unpack_of_fits, hbits, hread, hheader]
  · omega
  · rwa [hheader, padByte_toNat]
  · rwa [hheader, padByte_toNat]
  · omega

/-- Settles O43: the artifact without its last byte holds the stream less 8 bits, and DECODE cannot tell that from another
stream of whole codes when these 8 bits are whole codes. -/
theorem truncationIsDetectedOnlySometimes : Obligations.TruncationIsDetectedOnlySometimes := by
  rintro s p u hs hv hcap hp rfl
  rw [exec_pack] at hp
  cases hp
  have holen : (packBits s.ebuf).length = s.elen / 8 + 2 := packBits_length s.ebuf
  simp only [completed, State.olen, holen]
  refine ⟨fun h2 => ?_, fun h3 => ?_⟩
  · have hlen : (packBits s.ebuf).dropLast.length = 1 := by rw [List.length_dropLast]; omega
    rw [exec_unpack, State.ilen, hlen]
    rfl
  · have h8 : 8 ≤ s.elen := by omega
    refine ⟨_, exec_unpack_truncated rfl h8 hcap, completed_completed _ _, rfl, fun syms hc he hf w hw => ?_⟩
    have houtcome := decode_of_cut_outcome (n := 8) hw hv (hs.table hv) hc hf (he ▸ rfl) (by decide) (he ▸ h8)
    exact houtcome

end Sys2Proof.Machine
end

section
/-! The system commands (R260 to R264), the input buffer (R266, R267), and the reads of the buffers (R195, R268 to R270): each
completes with a value, PUTB and RDOB after one test that can fault. -/

namespace Sys2Proof.Machine

open Sys2Proof.Safety

/-! ## Reset -/

/-- The hardware reset keeps the capacities and the host's events, which are not among the components of R20 (R32, R340). -/
theorem atReset_hardReset (s : State) : AtReset s.hardReset := { atReset_resetWith s.cfg with }

/-- The response is none of the components of R20 (R96). -/
theorem atReset_complete {s : State} (h : AtReset s) (v : Nat) : AtReset (s.complete v) := { h with }

theorem step_of_hardwareReset {s : State} {rest : List HostEvent} (hi : s.inbox = .hardwareReset :: rest) :
    step s = .next (State.hardReset { s with inbox := rest }) := by
  simp only [step, nextEvent_cons s _ rest hi]

/-- Settles O9: both are `State.hardReset`, and RESET then answers. -/
theorem resetCommandAndHardwareResetAgree : Obligations.ResetCommandAndHardwareResetAgree := by
  refine ⟨by decide, fun s => ⟨s.hardReset.complete 0, rfl, atReset_complete (atReset_hardReset s) 0, ?_⟩,
    fun s rest hi => ⟨_, step_of_hardwareReset hi, atReset_hardReset _⟩⟩
  exact congrArg State.rsp (complete_eq_completed _ 0)

/-! ## Commands without a fault -/

theorem next_complete (s : State) (v : Nat) : (.next (s.complete v) : Result) = .next (completed s v) :=
  congrArg _ (complete_eq_completed s v)

/-- Settles O10: NOP is `return 0`. -/
theorem nopChangesNothing : Obligations.NopChangesNothing := ⟨by decide, fun s => next_complete s 0⟩

/-- Settles O11: CLRERR is `return 0` after the record has been cleared. -/
theorem clrerrClearsOnlyTheRecord : Obligations.ClrerrClearsOnlyTheRecord :=
  ⟨by decide, fun s => next_complete s.clearRecord 0⟩

/-- Settles O12: the answer is the status word, and its three summands do not overlap. -/
theorem rdstatShowsTheStatusWord : Obligations.RdstatShowsTheStatusWord := by
  refine ⟨by decide, fun s => ⟨answer 0 s.statusWord, next_complete s _, ?_⟩⟩
  have he := s.err.isLt
  have hr := s.rootv.toNat_le
  have hc := s.ctabv.toNat_le
  rw [answer_toNat 0 _ (by decide), State.statusWord]
  omega

/-- Settles O13: the answer is `FINFO`, which the invariant makes 0 while no fault is recorded. -/
theorem rdfinfoReturnsTheInformation : Obligations.RdfinfoReturnsTheInformation := by
  have hread : ∀ s : State, exec .rdfinfo s = .next (completed s s.finfo.toNat) := fun s => next_complete s _
  refine ⟨by decide, fun s => ⟨hread s, fun hs he => ?_⟩⟩
  rw [hread, hs.finfo_zero he]
  rfl

/-- Settles O26: each is `return` of a length. -/
theorem lengthReadsReturnTheLengths : Obligations.LengthReadsReturnTheLengths :=
  ⟨by decide, by decide, by decide, fun s => ⟨next_complete s _, next_complete s _, next_complete s _⟩⟩

/-! ## Bytes in and out -/

/-- Settles O25: CLRIN has no test, PUTB the one for a full buffer. -/
theorem clrinAndPutbFillTheInput : Obligations.ClrinAndPutbFillTheInput := by
  refine ⟨by decide, fun b => decode_encode (i := .putb b) rfl, fun s => next_complete { s with ibuf := [] } 0,
    fun s b => ?_⟩
  rw [exec, execPutb, raise_overflow, complete_eq_completed, apply_ite Host.Outcome.next]

/-- Settles O27: the index is past the output or names a byte of it. -/
theorem rdobReadsOneByte : Obligations.RdobReadsOneByte := by
  refine ⟨fun index hi => decode_encode (i := .rdob index) (decide_eq_true hi), fun s index => ?_⟩
  rw [exec, execRdob, obufByte?]
  by_cases hl : s.olen ≤ index
  · rw [if_pos hl, List.getElem?_eq_none hl, raise_range]
  · rw [if_neg hl, List.getD_eq_getElem?_getD, List.getElem?_eq_getElem (Nat.lt_of_not_le hl), Option.getD_some,
      ← complete_eq_completed]

end Sys2Proof.Machine
end

section
/-! Faults (R290, R300 to R304). `exec_raisesWithin` reads off each command's tests that it raises only its own codes;
`step_answers` says once what the step of a command word does to the fault record, and the rest is induction on the sequence
of words. -/

namespace Sys2Proof.Machine

open Sys2Proof.Safety

/-! ## The codes a command raises -/

theorem responseCode_response (c : BitVec 4) (d : Info) : responseCode (response c d) = c.toNat := by
  rw [response_eq_answer, responseCode_answer _ _ c.isLt]

/-- An ending that, if it is fault entry, is one with a code of the list. -/
def RaisesWithin (codes : List Nat) (r : Result) : Prop :=
  ∀ (u : State) (e : Raised), r = .next (u.raise e) → e.code.number.toNat ∈ codes

section
variable {codes : List Nat}

theorem raisesWithin_complete (u : State) (v : Nat) : RaisesWithin codes (.next (u.complete v)) := by
  intro u' e h
  injection h with h
  exact absurd (h ▸ completed_complete u v) (not_completed_raise u' e)

theorem raisesWithin_raise {u : State} {e : Raised} (hc : e.code.number.toNat ∈ codes) :
    RaisesWithin codes (.next (u.raise e)) := by
  intro u' e' h
  injection h with h
  have hr := congrArg State.rsp h
  rw [State.raise_rsp, State.raise_rsp, Option.some.injEq] at hr
  rwa [← responseCode_response _ e'.info, ← hr, responseCode_response]

/-- A fault raised with a number; for a given command and code the listing is evaluated. -/
theorem raisesWithin_raised {u : State} {c : FaultCode} {n : Nat} (hc : codes.elem c.number.toNat = true) :
    RaisesWithin codes (.next (u.raise (raised c n))) :=
  raisesWithin_raise (List.mem_of_elem_eq_true hc)

/-- A test that raises a listed code, before an ending that raises only listed ones. -/
theorem raisesWithin_test {c : Prop} [Decidable c] {u : State} {f : FaultCode} {n : Nat} {r : Result}
    (hf : codes.elem f.number.toNat = true) (hr : RaisesWithin codes r) :
    RaisesWithin codes (if c then .next (u.raise (raised f n)) else r) := by
  split
  · exact raisesWithin_raised hf
  · exact hr

end

/-- A 1 bit or a full output (R240). -/
theorem decodeSingle_error {cap : Nat} {sym : Byte} {i : Nat} {out : List Byte} {e : BitString} {f : Raised}
    (h : decodeSingle cap sym i out e = .error f) : f.code = .nocode ∨ f.code = .overflow := by
  induction e generalizing i out with
  | nil => cases h
  | cons b e ih =>
    rw [decodeSingle] at h
    split at h
    · cases h
      exact .inl rfl
    · split at h
      · cases h
        exact .inr rfl
      · exact ih h

/-- A full output or bits left over (R240). -/
theorem decodeWalk_error {t : Tree} {cap : Nat} {rl rr l r : NodeIdx} {i clen : Nat} {out : List Byte} {e : BitString}
    {f : Raised} (h : decodeWalk t cap rl rr i l r clen out e = .error f) : f.code = .overflow ∨ f.code = .leftover := by
  induction e generalizing i l r clen out with
  | nil =>
    rw [decodeWalk_nil] at h
    split at h
    · cases h
      exact .inr rfl
    · cases h
  | cons b e ih =>
    rw [decodeWalk] at h
    split at h
    · split at h
      · cases h
        exact .inl rfl
      · exact ih h
    · exact ih h

theorem decodeBits_error {t : Tree} {root : NodeIdx} {cap : Nat} {e : BitString} {f : Raised}
    (h : decodeBits t root cap e = .error f) : f.code = .nocode ∨ f.code = .overflow ∨ f.code = .leftover := by
  unfold decodeBits at h
  split at h
  · exact (decodeSingle_error h).imp_right .inl
  · exact .inr (decodeWalk_error h)

theorem execGentab_raisesWithin (s : State) : RaisesWithin (mayRaise .gentab) (execGentab s) := by
  rcases execGentab_cases s with ⟨e, hg, h⟩ | ⟨w, -, h⟩ <;> rw [h]
  · obtain ⟨-, m, rfl | rfl | rfl⟩ := generate_error hg <;> exact raisesWithin_raised rfl
  · exact raisesWithin_complete _ _

theorem execEncode_raisesWithin (s : State) : RaisesWithin (mayRaise .encode) (execEncode s) := by
  rcases execEncode_cases s with ⟨-, h⟩ | ⟨e, -, he, h⟩ | ⟨e, -, -, h⟩ <;> rw [h]
  · exact raisesWithin_raised rfl
  · obtain ⟨_, _, _, -, -, -, ⟨-, rfl⟩ | ⟨-, -, rfl⟩⟩ := encodeFrom_error (Nat.zero_le _) he <;>
      exact raisesWithin_raised rfl
  · exact raisesWithin_complete _ _

theorem execUnpack_raisesWithin (s : State) : RaisesWithin (mayRaise .unpack) (execUnpack s) :=
  raisesWithin_test rfl (raisesWithin_test rfl (raisesWithin_test rfl (raisesWithin_complete _ _)))

theorem execDecode_raisesWithin (s : State) : RaisesWithin (mayRaise .decode) (execDecode s) := by
  rcases execDecode_cases s with ⟨-, h⟩ | ⟨-, -, h⟩ | ⟨-, -, -, h⟩ | ⟨e, -, -, -, he, h⟩ | ⟨out, -, -, -, -, h⟩ <;> rw [h]
  · exact raisesWithin_raised rfl
  · exact raisesWithin_complete _ _
  · exact raisesWithin_raised rfl
  · apply raisesWithin_raise
    rcases decodeBits_error he with hc | hc | hc <;> rw [hc] <;> decide
  · exact raisesWithin_complete _ _

/-- R290: every command raises only the codes listed for it; a command with none completes. -/
theorem exec_raisesWithin (i : Instr) (s : State) : RaisesWithin (mayRaise i) (exec i s) := by
  cases i with
  | gentab => exact execGentab_raisesWithin s
  | encode => exact execEncode_raisesWithin s
  | unpack => exact execUnpack_raisesWithin s
  | decode => exact execDecode_raisesWithin s
  | ldleaf idx sym =>
    simp only [exec, execLdleaf]
    split
    · exact raisesWithin_raised rfl
    · exact raisesWithin_complete _ _
  | ldint idx left right =>
    simp only [exec, execLdint]
    split
    · exact raisesWithin_raised rfl
    · split
      · exact raisesWithin_raised rfl
      · split
        · exact raisesWithin_raised rfl
        · exact raisesWithin_complete _ _
  | setroot idx =>
    simp only [exec, execSetroot]
    split
    · exact raisesWithin_raised rfl
    · exact raisesWithin_complete _ _
  | rdnode idx =>
    simp only [exec, execRdnode]
    split
    · exact raisesWithin_raised rfl
    · exact raisesWithin_complete _ _
  | rdlen sym => exact raisesWithin_test rfl (raisesWithin_complete _ _)
  | rdcbit pos sym =>
    refine raisesWithin_test rfl ?_
    split
    · exact raisesWithin_raised rfl
    · exact raisesWithin_complete _ _
  | putb b => exact raisesWithin_test rfl (raisesWithin_complete _ _)
  | puteb b => exact raisesWithin_test rfl (raisesWithin_complete _ _)
  | encsym sym =>
    rcases execEncsym_cases sym s with ⟨-, h⟩ | ⟨-, -, h⟩ | ⟨-, -, -, h⟩ | ⟨-, -, -, h⟩ <;> rw [exec, h]
    · exact raisesWithin_raised rfl
    · exact raisesWithin_raised rfl
    · exact raisesWithin_raised rfl
    · exact raisesWithin_complete _ _
  | rdebit index =>
    simp only [exec, execRdebit]
    split
    · exact raisesWithin_raised rfl
    · exact raisesWithin_complete _ _
  | rdob index =>
    simp only [exec, execRdob]
    split
    · exact raisesWithin_raised rfl
    · exact raisesWithin_complete _ _
  | pack =>
    rw [exec, execPack_eq]
    exact raisesWithin_complete _ _
  | _ => exact raisesWithin_complete _ _

/-- R301's table: the four commands that leave something when they fault, and all the others. -/
theorem faultLeaves_cases (i : Instr) (s : State) :
    (i = .encode ∨ i = .unpack) ∧ faultLeaves s i = { s with ebuf := [] } ∨
    i = .decode ∧ faultLeaves s i = { s with obuf := [] } ∨
    i = .gentab ∧ faultLeaves s i = { s with ctab := noCodes, ctabv := false } ∨
    i ∉ [.encode, .unpack, .decode, .gentab] ∧ faultLeaves s i = s := by
  cases i with
  | encode => exact .inl ⟨.inl rfl, rfl⟩
  | unpack => exact .inl ⟨.inr rfl, rfl⟩
  | decode => exact .inr (.inl ⟨rfl, rfl⟩)
  | gentab => exact .inr (.inr (.inl ⟨rfl, rfl⟩))
  | _ => exact .inr (.inr (.inr ⟨by simp, rfl⟩))

/-- Settles O48: a command that does not complete raises one of its codes after what R301 lists, and the step of an illegal
word is fault entry alone. -/
theorem faultsLeaveOnlyWhatIsListed : Obligations.FaultsLeaveOnlyWhatIsListed := by
  refine ⟨fun i s t h hn => ?_, fun s w rest hi hd => step_of_not_legal hi hd⟩
  rcases exec_cases h with ⟨e, rfl⟩ | ⟨u, v, -, rfl⟩
  · refine ⟨e.code.number.toNat, e.info.toNat, exec_raisesWithin i s _ e h, e.info.isLt, ?_⟩
    rw [raise_eq]
    rcases faultLeaves_cases i s with ⟨hi, hl⟩ | ⟨hi, hl⟩ | ⟨hi, hl⟩ | ⟨hi, hl⟩ <;> rw [hl]
    · exact .inl ⟨hi, rfl⟩
    · exact .inr (.inl ⟨hi, rfl⟩)
    · exact .inr (.inr (.inl ⟨hi, rfl⟩))
    · exact .inr (.inr (.inr ⟨hi, rfl⟩))
  · exact absurd (completed_complete u v) hn

/-! ## The step of a command word -/

/-- How a command word ends from `u`, what it has written by then: with an answer, or with fault entry. -/
def AnswersFrom (u t : State) : Prop := (∃ v, t = u.complete v) ∨ ∃ e, t = u.raise e

/-- No other commands than CLRERR and RESET write the record (R33, R302). -/
theorem record_mem_mayWrite {i : Instr} (h : .record ∈ mayWrite i) : i = .clrerr ∨ i = .reset := by
  cases i with
  | clrerr => exact .inl rfl
  | reset => exact .inr rfl
  | _ => simp [mayWrite] at h

/-- Every command answers, after writes of its row of the access matrix (R33, R304). -/
theorem exec_answers (i : Instr) (s : State) :
    ∃ u t, exec i s = .next t ∧ WritesOnly (mayWrite i) s u ∧ AnswersFrom u t := by
  obtain ⟨t, h⟩ := exec_next i s
  rcases exec_cases h with ⟨e, rfl⟩ | ⟨u, v, hw, rfl⟩
  · exact ⟨_, _, h, faultLeaves_only i s, .inr ⟨e, rfl⟩⟩
  · exact ⟨u, _, h, writes_only hw, .inl ⟨v, rfl⟩⟩

/-- The word is that of neither CLRERR nor RESET. -/
def LeavesRecord (w : Word) : Prop := decode w ≠ .ok .clrerr ∧ decode w ≠ .ok .reset

/-- The step of a command word uses up the word and answers it, legal or not; what it writes before it answers touches the
record only for CLRERR and RESET (R93, R302, R304). -/
theorem step_answers {s : State} {w : Word} {rest : List HostEvent} (hi : s.inbox = .command w :: rest) :
    ∃ u t, step s = .next t ∧ AnswersFrom u t ∧ u.cfg = s.cfg ∧ u.inbox = rest ∧
      (LeavesRecord w → SameIn s u .record) := by
  by_cases hd : ∃ i, decode w = .ok i
  · obtain ⟨i, hd⟩ := hd
    obtain ⟨u, t, ht, ⟨hcfg, hin, hsame⟩, ha⟩ := exec_answers i { s with inbox := rest }
    refine ⟨u, t, (step_of_decode_ok hi hd).trans ht, ha, hcfg, hin, fun ⟨hc, hr⟩ => hsame .record fun hm => ?_⟩
    rcases record_mem_mayWrite hm with rfl | rfl
    · exact hc hd
    · exact hr hd
  · refine ⟨{ s with inbox := rest }, _, step_of_not_legal hi hd, .inr ⟨⟨.illegal, illegalInfo w⟩, ?_⟩, rfl, rfl,
      fun _ => ⟨rfl, rfl⟩⟩
    exact (illegalCommand_eq _ w).symm

section
variable {u t : State} (h : AnswersFrom u t)
include h

theorem answersFrom_cfg : t.cfg = u.cfg := by
  rcases h with ⟨v, rfl⟩ | ⟨e, rfl⟩ <;> rfl

theorem answersFrom_inbox : t.inbox = u.inbox := by
  rcases h with ⟨v, rfl⟩ | ⟨e, rfl⟩ <;> rfl

/-- The response has code 0 or the number of a fault, neither of which is 14 (R96, R290). -/
theorem answersFrom_rsp : ∃ c d, t.rsp = some (response c d) ∧ c ≠ 14 := by
  rcases h with ⟨v, rfl⟩ | ⟨e, rfl⟩
  · exact ⟨0, infoOf v, rfl, by decide⟩
  · exact ⟨e.code.number, e.info, rfl, e.code.number_ne.2⟩

end

/-- Bits 27:24 of a response are 0 (R96). -/
theorem response_reserved (c : BitVec 4) (d : Info) : (response c d).toNat / 2 ^ 24 % 16 = 0 := by
  rw [response_eq_answer, answer_toNat _ _ c.isLt]
  omega

/-- Settles O7: a step is nothing, a hardware reset, or the step of a command word, which answers. -/
theorem everyCommandIsAnswered : Obligations.EveryCommandIsAnswered := by
  intro s
  cases hb : s.inbox with
  | nil => exact ⟨s, by rw [step, nextEvent_nil s hb], rfl, fun _ _ hi => nomatch hi⟩
  | cons ev rest =>
    cases ev with
    | hardwareReset => exact ⟨_, step_of_hardwareReset hb, rfl, fun _ _ hi => nomatch hi⟩
    | command w =>
      obtain ⟨u, t, ht, ha, hcfg, hin, -⟩ := step_answers hb
      refine ⟨t, ht, (answersFrom_cfg ha).trans hcfg, fun w' rest' hi => ?_⟩
      obtain ⟨c, d, hr, hc⟩ := answersFrom_rsp ha
      cases hi
      refine ⟨(answersFrom_inbox ha).trans hin, response c d, hr, response_reserved c d, fun h14 => hc ?_⟩
      exact BitVec.eq_of_toNat_eq ((responseCode_response c d).symm.trans h14)

/-! ## The fault record along a sequence of words -/

section
variable {s t : State} {w : Word} (hw : LeavesRecord w) (h : step (present s w) = .next t)
include hw h

/-- What a presented word answers from has the record of the state before. -/
theorem step_present_answers : ∃ u, AnswersFrom u t ∧ u.err = s.err ∧ u.finfo = s.finfo := by
  obtain ⟨u, t', ht, ha, -, -, hsame⟩ := step_answers (s := present s w) rfl
  rw [h] at ht
  cases ht
  exact ⟨u, ha, hsame hw⟩

/-- A record that is not empty stays (R302). -/
theorem step_keeps_record (he : s.err ≠ 0) : t.err = s.err ∧ t.finfo = s.finfo := by
  obtain ⟨u, ⟨v, rfl⟩ | ⟨e, rfl⟩, herr, hinfo⟩ := step_present_answers hw h
  · exact ⟨herr, hinfo⟩
  · rw [← herr] at he
    exact ⟨(if_neg he).trans herr, (if_neg he).trans hinfo⟩

/-- A word that completes leaves `ERR` (R33). -/
theorem step_completed_err (hd : Completed t) : t.err = s.err := by
  obtain ⟨u, ⟨v, rfl⟩ | ⟨e, rfl⟩, herr, -⟩ := step_present_answers hw h
  · exact herr
  · exact absurd hd (not_completed_raise u e)

/-- The first fault's code and information, as the response gives them, are recorded (R300). -/
theorem step_records_fault (he : s.err = 0) (hn : ¬ Completed t) :
    t.rsp = some (answer t.err.toNat t.finfo.toNat) ∧ t.err ≠ 0 := by
  obtain ⟨u, ⟨v, rfl⟩ | ⟨e, rfl⟩, herr, -⟩ := step_present_answers hw h
  · exact absurd (completed_complete u v) hn
  · have hu : u.err = 0 := herr.trans he
    rw [State.raise_rsp, State.raise_err, State.raise_finfo, if_pos hu, if_pos hu, response_eq_answer]
    exact ⟨rfl, e.code.number_ne.1⟩

end

/-- A sequence that begins with a word runs it and then the rest. -/
theorem runWords_cons_eq_some {w : Word} {l : List Word} {s t : State} :
    runWords (w :: l) s = some t ↔ ∃ u, step (present s w) = .next u ∧ runWords l u = some t := by
  rw [runWords]
  cases step (present s w) <;> simp

/-- A sequence runs its two parts one after the other. -/
theorem runWords_append_eq_some {l m : List Word} {s t : State} :
    runWords (l ++ m) s = some t ↔ ∃ u, runWords l s = some u ∧ runWords m u = some t := by
  induction l generalizing s with
  | nil => simp [runWords]
  | cons w l ih =>
    simp only [List.cons_append, runWords_cons_eq_some, ih]
    constructor
    · rintro ⟨v, hv, u, hu, ht⟩
      exact ⟨u, ⟨v, hv, hu⟩, ht⟩
    · rintro ⟨u, ⟨v, hv, hu⟩, ht⟩
      exact ⟨v, hv, u, hu, ht⟩

/-- A record that is not empty stays through any sequence (R302). -/
theorem runWords_keeps_record {words : List Word} (hl : ∀ w ∈ words, LeavesRecord w) {s t : State}
    (h : runWords words s = some t) (he : s.err ≠ 0) : t.err = s.err ∧ t.finfo = s.finfo := by
  induction words generalizing s with
  | nil =>
    cases h
    exact ⟨rfl, rfl⟩
  | cons w words ih =>
    rw [List.forall_mem_cons] at hl
    obtain ⟨u, hu, ht⟩ := runWords_cons_eq_some.1 h
    obtain ⟨herr, hinfo⟩ := step_keeps_record hl.1 hu he
    obtain ⟨herr', hinfo'⟩ := ih hl.2 ht (herr ▸ he)
    exact ⟨herr'.trans herr, hinfo'.trans hinfo⟩

/-- Every word of the sequence completes, in the state in which it is presented. -/
def AllComplete (words : List Word) (s : State) : Prop :=
  ∀ before w after, words = before ++ w :: after →
    ∃ u v, runWords before s = some u ∧ step (present u w) = .next v ∧ Completed v

/-- A sequence of words that all complete leaves `ERR` (R33). -/
theorem runWords_err_of_allComplete {words : List Word} (hl : ∀ w ∈ words, LeavesRecord w) {s t : State}
    (h : runWords words s = some t) (hc : AllComplete words s) : t.err = s.err := by
  induction words generalizing s with
  | nil =>
    cases h
    rfl
  | cons w words ih =>
    rw [List.forall_mem_cons] at hl
    obtain ⟨u, hu, ht⟩ := runWords_cons_eq_some.1 h
    have hfirst : Completed u := by
      obtain ⟨_, v, hs, hv, hd⟩ := hc [] w words rfl
      cases hs
      rw [hu] at hv
      cases hv
      exact hd
    have hrest : AllComplete words u := by
      rintro before x after rfl
      obtain ⟨a, b, ha, hb, hd⟩ := hc (w :: before) x after rfl
      obtain ⟨u', hu', ha⟩ := runWords_cons_eq_some.1 ha
      rw [hu] at hu'
      cases hu'
      exact ⟨a, b, ha, hb, hd⟩
    exact (ih hl.2 ht hrest).trans (step_completed_err hl.1 hu hfirst)

/-- A fault with the record empty is what the record shows at the end of the sequence (R302). -/
theorem runWords_keeps_first_fault {w : Word} {after : List Word} (hl : ∀ x ∈ w :: after, LeavesRecord x)
    {u v t : State} (hv : step (present u w) = .next v) (ht : runWords after v = some t) (hu : u.err = 0)
    (hn : ¬ Completed v) : v.rsp = some (answer t.err.toNat t.finfo.toNat) ∧ t.err ≠ 0 := by
  rw [List.forall_mem_cons] at hl
  obtain ⟨hrsp, hne⟩ := step_records_fault hl.1 hv hu hn
  obtain ⟨herr, hinfo⟩ := runWords_keeps_record hl.2 ht hne
  rw [herr, hinfo]
  exact ⟨hrsp, hne⟩

/-- With `ERR` = 0 at the end every word has completed (R302). -/
theorem allComplete_of_err {words : List Word} (hl : ∀ w ∈ words, LeavesRecord w) {s t : State}
    (h : runWords words s = some t) (he : t.err = 0) : AllComplete words s := by
  rintro before w after rfl
  rw [List.forall_mem_append] at hl
  obtain ⟨u, hu, hrest⟩ := runWords_append_eq_some.1 h
  obtain ⟨v, hv, ht⟩ := runWords_cons_eq_some.1 hrest
  refine ⟨u, v, hu, hv, by_contra fun hn => ?_⟩
  by_cases hz : u.err = 0
  · exact (runWords_keeps_first_fault hl.2 hv ht hz hn).2 he
  · exact hz ((runWords_keeps_record hl.2 hrest hz).1.symm.trans he)

/-- Settles O49: a record that is not empty stays, the first fault fills it, and a word that completes leaves it. -/
theorem firstFaultIsKept : Obligations.FirstFaultIsKept := by
  intro words s t hl h
  refine ⟨runWords_keeps_record hl h, ?_, fun hs => ⟨allComplete_of_err hl h, fun hc => ?_⟩⟩
  · rintro before w after u v rfl hu hz hv hn
    obtain ⟨u', hu', hrest⟩ := runWords_append_eq_some.1 h
    rw [hu] at hu'
    cases hu'
    obtain ⟨v', hv', ht⟩ := runWords_cons_eq_some.1 hrest
    rw [hv] at hv'
    cases hv'
    exact runWords_keeps_first_fault (List.forall_mem_append.1 hl).2 hv ht hz hn
  · exact (runWords_err_of_allComplete hl h hc).trans hs

end Sys2Proof.Machine
end

section
/-! The host interface (logs 5 to 7): the step of each form of `inbox`, beside `step_of_decode_ok` and
`step_of_hardwareReset`. -/

namespace Sys2Proof.Machine

open Sys2Proof.Safety

/-- With no event nothing happens (log 6). -/
theorem step_of_inbox_nil {s : State} (hi : s.inbox = []) : step s = .next s := by
  rw [step, nextEvent_nil s hi]

/-- A word put before the host's events is the next one, as it stands (log 14). -/
theorem State.withFetchWord_inbox (s : State) (w : Nat) :
    (s.withFetchWord 32 w).inbox = .command (BitVec.ofNat 32 w) :: s.inbox := by
  rw [State.withFetchWord, tableWord_32]

/-- Taking the word that was put there gives back the state. -/
theorem State.withFetchWord_taken (s : State) (w : Nat) :
    { s.withFetchWord 32 w with inbox := s.inbox } = s := rfl

/-- A legal word put before the host's events runs its command in the state it was put into (R350). -/
theorem step_withFetchWord {s : State} {w : Nat} {i : Instr} (hd : decode (BitVec.ofNat 32 w) = .ok i) :
    step (s.withFetchWord 32 w) = exec i s := by
  rw [step_of_decode_ok (s.withFetchWord_inbox w) hd, s.withFetchWord_taken w]

/-- Settles O6: one lemma for each form of `inbox`, and the event that `withFetchWord` puts there. -/
theorem stepRunsTheHostsNextEvent : Obligations.StepRunsTheHostsNextEvent := by
  intro s
  refine ⟨fun w rest i hi hd => ?_, fun rest hi => ?_, fun hi => ?_, fun w i _ hd => ?_⟩
  · exact step_of_decode_ok hi hd
  · exact step_of_hardwareReset hi
  · exact step_of_inbox_nil hi
  · exact step_withFetchWord hd

end Sys2Proof.Machine
end
